-- ==== Sys2Proof/Word.lean ====
section
/-! DEFINITION. The two widths of the hardware (00_scope.md R4, R5): a byte of 8 bits and a word of 16 bits. Both are
unsigned bit patterns; the one value read as signed is the offset of JR NZ,r8. -/

namespace Sys2Proof

/-- An 8-bit register, memory cell, opcode or immediate (`XLEN8`, `BYTE_BITS`, R4). -/
abbrev Byte := BitVec 8

/-- PC, SP, a register pair, a bus address or a 16-bit immediate (`XLEN16`, `ADDR_BITS`, R4). -/
abbrev Word := BitVec 16

end Sys2Proof
end

