-- ==== Sys2Proof/Syntax.lean ====
section
/-! DEFINITION. The instructions: one constructor for each of the 21 rows of spec/opcode_table.json (30_encoding.md R86),
the five formats (R84), the canonical spelling of each mnemonic (R93), and the payload of a decode failure
(60_exceptions.md R170). An operand has the width its encoding gives it, so an operand out of range cannot be written. -/

namespace Sys2Proof

/-- The five instruction formats (R84). -/
inductive Format where
  /-- One byte: the opcode. -/
  | op
  /-- Two bytes: the opcode and an unsigned 8-bit immediate. -/
  | opD8
  /-- Two bytes: the opcode and a signed 8-bit offset. -/
  | opR8
  /-- Three bytes: the opcode, then the low and the high byte of a 16-bit immediate. -/
  | opD16
  /-- Two bytes: the prefix 0xCB and the sub-opcode. -/
  | cb
  deriving DecidableEq, Repr

/-- The bytes an instruction of a format occupies (R84). -/
def Format.length : Format → Nat
  | .op => 1
  | .opD8 => 2
  | .opR8 => 2
  | .opD16 => 3
  | .cb => 2

/-- The 21 instructions of the dispatch table (R86), in the table's order. -/
inductive Instr where
  /-- 0x00, NOP (R160). -/
  | nop
  /-- 0x06, LD B,d8 (R110). -/
  | ldBd8 (d8 : Byte)
  /-- 0x0C, INC C (R141). -/
  | incC
  /-- 0x0E, LD C,d8 (R111). -/
  | ldCd8 (d8 : Byte)
  /-- 0x11, LD DE,d16 (R130). -/
  | ldDEd16 (d16 : Word)
  /-- 0x17, RLA (R151). -/
  | rla
  /-- 0x1A, LD A,(DE) (R114). -/
  | ldAatDE
  /-- 0x20, JR NZ,r8 (R161); the operand is the raw offset byte. -/
  | jrNZ (r8 : Byte)
  /-- 0x21, LD HL,d16 (R131). -/
  | ldHLd16 (d16 : Word)
  /-- 0x31, LD SP,d16 (R132). -/
  | ldSPd16 (d16 : Word)
  /-- 0x32, LD (HL-),A (R116). -/
  | ldAtHLdecA
  /-- 0x3E, LD A,d8 (R112). -/
  | ldAd8 (d8 : Byte)
  /-- 0x4F, LD C,A (R113). -/
  | ldCA
  /-- 0x77, LD (HL),A (R115). -/
  | ldAtHLA
  /-- 0xAF, XOR A (R142). -/
  | xorA
  /-- 0xC5, PUSH BC (R133). -/
  | pushBC
  /-- 0xCB 0x11, RL C (R152). -/
  | rlC
  /-- 0xCB 0x7C, BIT 7,H (R153). -/
  | bit7H
  /-- 0xCD, CALL nn (R162). -/
  | callNN (nn : Word)
  /-- 0xE0, LDH (n),A (R117). -/
  | ldhAtNA (n : Byte)
  /-- 0xE2, LD (C),A (R118). -/
  | ldAtCA
  deriving DecidableEq, Repr

/-- The format of each instruction (R84, R86). -/
def Instr.format : Instr → Format
  | .nop => .op
  | .ldBd8 _ => .opD8
  | .incC => .op
  | .ldCd8 _ => .opD8
  | .ldDEd16 _ => .opD16
  | .rla => .op
  | .ldAatDE => .op
  | .jrNZ _ => .opR8
  | .ldHLd16 _ => .opD16
  | .ldSPd16 _ => .opD16
  | .ldAtHLdecA => .op
  | .ldAd8 _ => .opD8
  | .ldCA => .op
  | .ldAtHLA => .op
  | .xorA => .op
  | .pushBC => .op
  | .rlC => .cb
  | .bit7H => .cb
  | .callNN _ => .opD16
  | .ldhAtNA _ => .opD8
  | .ldAtCA => .op

/-- The length of each instruction in bytes (R86). -/
def Instr.length (i : Instr) : Nat := i.format.length

/-- The canonical spelling of each mnemonic, verbatim (R93). -/
def Instr.spelling : Instr → String
  | .nop => "NOP"
  | .ldBd8 _ => "LD B,d8"
  | .incC => "INC C"
  | .ldCd8 _ => "LD C,d8"
  | .ldDEd16 _ => "LD DE,d16"
  | .rla => "RLA"
  | .ldAatDE => "LD A,(DE)"
  | .jrNZ _ => "JR NZ,r8"
  | .ldHLd16 _ => "LD HL,d16"
  | .ldSPd16 _ => "LD SP,d16"
  | .ldAtHLdecA => "LD (HL-),A"
  | .ldAd8 _ => "LD A,d8"
  | .ldCA => "LD C,A"
  | .ldAtHLA => "LD (HL),A"
  | .xorA => "XOR A"
  | .pushBC => "PUSH BC"
  | .rlC => "RL C"
  | .bit7H => "BIT 7,H"
  | .callNN _ => "CALL nn"
  | .ldhAtNA _ => "LDH (n),A"
  | .ldAtCA => "LD (C),A"

/-- What a decode failure carries (60_exceptions.md R170, R171; decision D17). -/
inductive DecodeError where
  /-- `Unknown(op)`: the first byte is none of the 20 recognised ones (R90). -/
  | unknown (op : Byte)
  /-- `UnknownCB(sub)`: the byte after the prefix 0xCB is neither 0x11 nor 0x7C (R91). -/
  | unknownCB (sub : Byte)
  deriving DecidableEq, Repr

end Sys2Proof
end

