-- ==== Sys2Proof/WellFormed.lean ====
section
/-! DEFINITION. The dispatch table as data (30_encoding.md R86, R95) and what it makes of a byte sequence: the recognised
first bytes and sub-opcodes (R90, R91) and when a sequence is one whole instruction (R84, R87, R89). The decoder is
written apart from this table; Sys2Proof/Laws/Decode.lean and the obligations compare the two.

An instruction TERM has no check of its own: every immediate value is legal (R85) and an operand has the width of its
field, so `Instr.wellFormed` holds of every term. What can be ill-formed is a byte sequence. -/

namespace Sys2Proof

/-- One row of the dispatch table: the first byte, the byte after the prefix where the row has one, and the format. -/
structure Row where
  first  : Byte
  sub    : Option Byte
  format : Format
  deriving DecidableEq, Repr

/-- The 19 rows selected by the first byte alone (R86). -/
def plainRows : List Row :=
  [ ⟨0x00, none, .op⟩,    ⟨0x06, none, .opD8⟩,  ⟨0x0C, none, .op⟩,    ⟨0x0E, none, .opD8⟩,
    ⟨0x11, none, .opD16⟩, ⟨0x17, none, .op⟩,    ⟨0x1A, none, .op⟩,    ⟨0x20, none, .opR8⟩,
    ⟨0x21, none, .opD16⟩, ⟨0x31, none, .opD16⟩, ⟨0x32, none, .op⟩,    ⟨0x3E, none, .opD8⟩,
    ⟨0x4F, none, .op⟩,    ⟨0x77, none, .op⟩,    ⟨0xAF, none, .op⟩,    ⟨0xC5, none, .op⟩,
    ⟨0xCD, none, .opD16⟩, ⟨0xE0, none, .opD8⟩,  ⟨0xE2, none, .op⟩ ]

/-- The 2 rows behind the prefix 0xCB (R86, R88). -/
def prefixedRows : List Row :=
  [ ⟨0xCB, some 0x11, .cb⟩, ⟨0xCB, some 0x7C, .cb⟩ ]

/-- The 21 rows of the dispatch table (R86). -/
def opcodeTable : List Row := plainRows ++ prefixedRows

/-- The row is selected by these bytes: its first byte is the first, and where the row has a sub-opcode it is the second
(R89: whole bytes, mask 0xFF). -/
def Row.selects (r : Row) : List Byte → Bool
  | [] => false
  | b0 :: rest =>
    b0 == r.first &&
      match r.sub with
      | none => true
      | some sb => rest.head? == some sb

/-- Check 1: the first byte is one of the 20 recognised first bytes (R90). -/
def firstByteRecognised (bs : List Byte) : Bool :=
  match bs with
  | [] => false
  | b0 :: _ => opcodeTable.any fun r => r.first == b0

/-- Check 2: some row is selected; after the prefix that is to say the sub-opcode is 0x11 or 0x7C (R91). -/
def rowSelected (bs : List Byte) : Bool :=
  opcodeTable.any fun r => r.selects bs

/-- Check 3: the sequence has exactly the bytes of the selected row's format (R84, R87). -/
def lengthFits (bs : List Byte) : Bool :=
  opcodeTable.any fun r => r.selects bs && bs.length == r.format.length

/-- A byte sequence is the encoding of one whole instruction. -/
def wellFormedEncoding (bs : List Byte) : Bool :=
  firstByteRecognised bs && rowSelected bs && lengthFits bs

/-- Every instruction term is well-formed: "All immediate byte values are legal: no immediate value is reserved, illegal
or checked" (R85), and registers, bit number and condition are part of the constructor. -/
def Instr.wellFormed : Instr → Bool
  | .nop => true
  | .ldBd8 _ => true
  | .incC => true
  | .ldCd8 _ => true
  | .ldDEd16 _ => true
  | .rla => true
  | .ldAatDE => true
  | .jrNZ _ => true
  | .ldHLd16 _ => true
  | .ldSPd16 _ => true
  | .ldAtHLdecA => true
  | .ldAd8 _ => true
  | .ldCA => true
  | .ldAtHLA => true
  | .xorA => true
  | .pushBC => true
  | .rlC => true
  | .bit7H => true
  | .callNN _ => true
  | .ldhAtNA _ => true
  | .ldAtCA => true

end Sys2Proof
end

