-- ==== Sys2Proof/Decode.lean ====
section
/-! DEFINITION. The byte-order and extension helpers (00_scope.md R7), the decoder (30_encoding.md R82, R87 to R92),
which is total on any bytes and rejects by name, the encoder (R84 to R86), and the host's reading of a row of
spec/opcode_table.json. -/

namespace Sys2Proof

/-! ### Bytes and words -/

/-- `{hi, lo} = (hi << 8) | lo` (R7). -/
def joinBytes (hi lo : Byte) : Word := (hi ++ lo : BitVec (8 + 8))

/-- `hi8(w) = w[15:8]` (R7). -/
def hi8 (w : Word) : Byte := w.extractLsb' 8 8

/-- `lo8(w) = w[7:0]` (R7). -/
def lo8 (w : Word) : Byte := w.extractLsb' 0 8

/-- `zext_16(b)` (R7). -/
def zext16 (b : Byte) : Word := b.setWidth 16

/-- `sext_16(b)`, two's complement (R7, R85). -/
def sext16 (b : Byte) : Word := b.signExtend 16

/-! ### The decoder -/

/-- `PREFIX_BYTE` (R4, R88): the opcode byte that selects the second table. -/
def prefixByte : Byte := 0xCB

/-- The number of bytes a step fetches, told from the first byte alone (R87). An unrecognised first byte is fetched
alone, and the prefix always with the byte after it. -/
def instrLength (op : Byte) : Nat :=
  if op ∈ ([0x06, 0x0E, 0x20, 0x3E, 0xE0, prefixByte] : List Byte) then 2
  else if op ∈ ([0x11, 0x21, 0x31, 0xCD] : List Byte) then 3
  else 1

/-- The second table: the byte after the prefix (R82, R86, R88, R91). -/
def decodeCB (sub : Byte) : Except DecodeError Instr :=
  if sub = 0x11 then .ok .rlC
  else if sub = 0x7C then .ok .bit7H
  else .error (.unknownCB sub)

/-- `decode` (R82): the whole first byte `op` selects the handler (R89), whose operands are the bytes after it, `b1` and
then `b2`, low byte first (R85). A format that has no byte 1 or byte 2 does not look at it (`decode_ignores` in
Sys2Proof/Laws/Decode.lean). Every first byte and sub-opcode outside the table is rejected by name (R90, R91). -/
def decode (op b1 b2 : Byte) : Except DecodeError Instr :=
  if op = 0x00 then .ok .nop
  else if op = 0x06 then .ok (.ldBd8 b1)
  else if op = 0x0C then .ok .incC
  else if op = 0x0E then .ok (.ldCd8 b1)
  else if op = 0x11 then .ok (.ldDEd16 (joinBytes b2 b1))
  else if op = 0x17 then .ok .rla
  else if op = 0x1A then .ok .ldAatDE
  else if op = 0x20 then .ok (.jrNZ b1)
  else if op = 0x21 then .ok (.ldHLd16 (joinBytes b2 b1))
  else if op = 0x31 then .ok (.ldSPd16 (joinBytes b2 b1))
  else if op = 0x32 then .ok .ldAtHLdecA
  else if op = 0x3E then .ok (.ldAd8 b1)
  else if op = 0x4F then .ok .ldCA
  else if op = 0x77 then .ok .ldAtHLA
  else if op = 0xAF then .ok .xorA
  else if op = 0xC5 then .ok .pushBC
  else if op = prefixByte then decodeCB b1
  else if op = 0xCD then .ok (.callNN (joinBytes b2 b1))
  else if op = 0xE0 then .ok (.ldhAtNA b1)
  else if op = 0xE2 then .ok .ldAtCA
  else .error (.unknown op)

/-- Decode the instruction at the front of a byte sequence. A byte past the sequence's end counts as zero: the machine
itself never lacks a byte, since every address has a cell (20_memory.md R52). -/
def decodeBytes (bs : List Byte) : Except DecodeError Instr :=
  decode (bs.getD 0 0x00) (bs.getD 1 0x00) (bs.getD 2 0x00)

/-! ### The encoder -/

/-- The bytes of an instruction in stream order, the opcode first and a 16-bit immediate low byte first (R84 to R86,
20_memory.md R53). -/
def encode : Instr → List Byte
  | .nop => [0x00]
  | .ldBd8 d8 => [0x06, d8]
  | .incC => [0x0C]
  | .ldCd8 d8 => [0x0E, d8]
  | .ldDEd16 d16 => [0x11, lo8 d16, hi8 d16]
  | .rla => [0x17]
  | .ldAatDE => [0x1A]
  | .jrNZ r8 => [0x20, r8]
  | .ldHLd16 d16 => [0x21, lo8 d16, hi8 d16]
  | .ldSPd16 d16 => [0x31, lo8 d16, hi8 d16]
  | .ldAtHLdecA => [0x32]
  | .ldAd8 d8 => [0x3E, d8]
  | .ldCA => [0x4F]
  | .ldAtHLA => [0x77]
  | .xorA => [0xAF]
  | .pushBC => [0xC5]
  | .rlC => [0xCB, 0x11]
  | .bit7H => [0xCB, 0x7C]
  | .callNN nn => [0xCD, lo8 nn, hi8 nn]
  | .ldhAtNA n => [0xE0, n]
  | .ldAtCA => [0xE2]

/-! ### A word of spec/opcode_table.json -/

/-- Byte `k` of the instruction whose table number is `w`, of `nbits` bits. The table reads an instruction as ONE number
whose leftmost (most significant) byte is byte 0 (R95 and the "fixed" ranges of its rows: LD B,d8 has 0x06 in bits 15..8
of 16). Bytes past `nbits` are zero. Log entry 21. -/
def tableByte (nbits w k : Nat) : Byte :=
  if 8 * (k + 1) ≤ nbits then BitVec.ofNat 8 (w >>> (nbits - 8 * (k + 1))) else 0x00

/-- The bytes of a table word in stream order, up to the longest instruction (3 bytes). -/
def tableBytes (nbits w : Nat) : List Byte :=
  [tableByte nbits w 0, tableByte nbits w 1, tableByte nbits w 2]

/-- The instruction the decoder reads from a table word; `none` where it refuses. -/
def decodeTableWord (nbits w : Nat) : Option Instr :=
  match decodeBytes (tableBytes nbits w) with
  | .ok i => some i
  | .error _ => none

end Sys2Proof
end

