-- ==== Sys2Proof/Config.lean ====
section
/-! DEFINITION. What is fixed for the machine and is neither state nor an instruction's effect (00_scope.md R4). The
values an instruction's meaning uses (the high page's base, the polarity of JR NZ, the prefix byte) stand beside the
operation that uses them. The spec's OPEN parameters are arguments of Machine/Environment.lean. -/

namespace Sys2Proof.Config

/-- `MEM_SIZE`: the number of addressable bytes (R4, R36; decision D1: the cell at 0xFFFF exists). -/
def memSize : Nat := 0x10000

/-- `ROM_BASE`: where the loader places the first byte of the image (R4, R61). -/
def romBase : Nat := 0x0000

/-- `RESET_PC`, the entry point (R4, R40, R201). -/
def resetPC : Word := 0x0000

/-- `RESET_SP` (R4, R40). -/
def resetSP : Word := 0x0000

/-- The value of each of the eight 8-bit registers, F among them, at power-on: "all fields zero" (R40). -/
def resetByte : Byte := 0x00

/-- `CYCLES_RESET` (R4, R34; decision D12). -/
def cyclesReset : Nat := 0

/-- `ON_DECODE_ERROR`: what the driver does after a decode failure. The spec leaves it OPEN (R177, decision D14); the
model's driver takes it as an argument. -/
inductive OnDecodeError where
  /-- The run ends at the first decode failure. -/
  | halt
  /-- `continue` in the spec: the driver calls `step` again from the state the failure left. -/
  | resume
  deriving DecidableEq, Repr

end Sys2Proof.Config
end

