-- ==== Sys2Proof/Machine/State.lean ====
section
/-! DEFINITION. The whole state of the block (10_state.md R42) as plain data, the reset state (R40), the names of
registers, pairs and flags, and the reasons a step can stop. -/

namespace Sys2Proof.Machine

/-- `mem` (R36): the cells that do not hold what an unlisted cell reads as, in the canonical form of `Memory.wf`
(Machine/Ops.lean). -/
abbrev Memory := List Host.Cell

/-- The seven 8-bit registers that instructions name (R20). F is apart: only the flag accessor touches it (R24, R31). -/
inductive Reg8 where
  | a | b | c | d | e | h | l
  deriving DecidableEq, Repr

/-- The three paired views (R22, R24). -/
inductive Pair where
  | bc | de | hl
  deriving DecidableEq, Repr

/-- The four flags (R29). -/
inductive Flag where
  | z | n | h | c
  deriving DecidableEq, Repr

/-- The architectural state: "exactly this tuple; nothing else is state" (R42). -/
structure State where
  /-- Register A (R20). -/
  a : Byte
  /-- Register B (R20). -/
  b : Byte
  /-- Register C (R20); not the carry flag. -/
  c : Byte
  /-- Register D (R20). -/
  d : Byte
  /-- Register E (R20). -/
  e : Byte
  /-- The flag register F: Z, N, H, C in bits 7..4, bits 3..0 zero (R29, R30). -/
  f : Byte
  /-- Register H (R20); not the half-carry flag. -/
  h : Byte
  /-- Register L (R20). -/
  l : Byte
  /-- The program counter (R26). -/
  pc : Word
  /-- The stack pointer (R25). -/
  sp : Word
  /-- The T-states of the last successfully executed instruction (R34). -/
  cycles : Nat
  /-- The 65536 cells of the Memory Bus (R36). -/
  mem : Memory
  deriving DecidableEq, Repr

/-- The state after power-on construction: every register zero (R40, R200), `cycles` 0 (decision D12), and memory with
nothing listed (what an unlisted cell reads as is log entry 1; the spec's OPEN `INIT_MEM` is the argument of `launch`
in Machine/Environment.lean). -/
def State.reset : State where
  a := Config.resetByte
  b := Config.resetByte
  c := Config.resetByte
  d := Config.resetByte
  e := Config.resetByte
  f := Config.resetByte
  h := Config.resetByte
  l := Config.resetByte
  pc := Config.resetPC
  sp := Config.resetSP
  cycles := Config.cyclesReset
  mem := []

/-- Why a step fails. The decode failure is the hardware's one exception (60_exceptions.md R170, R171). -/
inductive Fault where
  /-- Raised by `raiseDecodeError`, called by `step` alone, for a first byte or a sub-opcode with no handler (R90, R91).
  `left` is the state the failure leaves (R175): a step of this hardware returns the error AND the machine, which
  stores nothing of the error (R170). Safe: the run ends where the driver's policy is open (R177); the driver of
  Machine/Environment.lean goes on from `left` under `ON_DECODE_ERROR = continue`. -/
  | decodeError (info : DecodeError) (left : State)
  deriving DecidableEq, Repr

/-- Why the model has no meaning for an instruction. -/
inductive Refusal where
  /-- Raised by an arm of `exec` whose instruction has no meaning yet. Safe: the run stops. No arm raises it: all 21
  instructions have their meaning. -/
  | notModelled (mnemonic : String)
  deriving DecidableEq, Repr

end Sys2Proof.Machine
end

