-- ==== Sys2Proof/Machine/Ops.lean ====
section
/-! DEFINITION. The shared operations: the memory list and its canonical form, the bus (20_memory.md R50, R51), the
register and pair accessors (10_state.md R20, R22), fetch (30_encoding.md R80, R81), push (R133, R162), the end of an
instruction, and the decode failure (60_exceptions.md R170, R175). -/

namespace Sys2Proof.Machine

/-! ### The memory list -/

/-- What a cell that the list does not name reads as. DESIGN CHOICE, unsafe, log entry 1: the spec leaves memory outside
the ROM image OPEN (R40, D13). Every content of the 65536 cells is some canonical list, so the choice shows only in a
state whose list was never filled, which State.reset is. -/
def Memory.unlistedByte : Byte := 0x00

/-- The byte at a key: the first entry of that key, or what an unlisted cell reads as. -/
def Memory.lookup : Memory → Nat → Byte
  | [], _ => Memory.unlistedByte
  | (k, v) :: rest, a => if k = a then v else Memory.lookup rest a

/-- Put an entry at its place among rising keys, replacing an entry of the same key. -/
def Memory.insert : Memory → Nat → Byte → Memory
  | [], a, v => [(a, v)]
  | (k, w) :: rest, a, v =>
    if a < k then (a, v) :: (k, w) :: rest
    else if a = k then (a, v) :: rest
    else (k, w) :: Memory.insert rest a v

/-- Remove every entry of a key. -/
def Memory.erase (m : Memory) (a : Nat) : Memory := m.filter fun cell => cell.1 != a

/-- Store a byte: the value an unlisted cell reads as is held by having no entry. -/
def Memory.put (m : Memory) (a : Nat) (v : Byte) : Memory :=
  if v = Memory.unlistedByte then Memory.erase m a else Memory.insert m a v

/-- The keys rise strictly from `lo` on, lie in the address space, and no entry equals what an unlisted cell reads as. -/
def Memory.wfFrom (lo : Nat) : Memory → Bool
  | [] => true
  | (k, v) :: rest =>
    decide (lo ≤ k) && decide (k < Config.memSize) && (v != Memory.unlistedByte) && Memory.wfFrom (k + 1) rest

/-- The canonical form: equal memories are equal lists. -/
def Memory.wf (m : Memory) : Bool := Memory.wfFrom 0 m

/-- The memory whose cells hold a given content: the form in which `INIT_MEM`, "a total function from the 65536
addresses to bytes" (D13), becomes a list. -/
def Memory.ofFun (content : Word → Byte) : Memory :=
  (List.range Config.memSize).filterMap fun a =>
    if content (BitVec.ofNat 16 a) = Memory.unlistedByte then none else some (a, content (BitVec.ofNat 16 a))

/-! ### The bus -/

/-- `MemRead(addr, 1)` (R50): total, changes nothing. -/
def readByte (s : State) (addr : Word) : Byte := Memory.lookup s.mem addr.toNat

/-- `MemWrite(addr, 1, v)` (R51): total, changes one cell. -/
def writeByte (s : State) (addr : Word) (v : Byte) : State := { s with mem := Memory.put s.mem addr.toNat v }

/-- Write bytes at successive addresses, wrapping at the top of memory. -/
def writeBytes (s : State) (addr : Word) : List Byte → State
  | [] => s
  | v :: rest => writeBytes (writeByte s addr v) (addr + 1) rest

/-! ### Registers and pairs -/

/-- `x[r]` (R8, R20). -/
def getReg (s : State) : Reg8 → Byte
  | .a => s.a
  | .b => s.b
  | .c => s.c
  | .d => s.d
  | .e => s.e
  | .h => s.h
  | .l => s.l

/-- `x[r] <- v` (R8, R20). -/
def setReg (s : State) (r : Reg8) (v : Byte) : State :=
  match r with
  | .a => { s with a := v }
  | .b => { s with b := v }
  | .c => { s with c := v }
  | .d => { s with d := v }
  | .e => { s with e := v }
  | .h => { s with h := v }
  | .l => { s with l := v }

/-- The register that is a pair's high byte (R22). -/
def Pair.high : Pair → Reg8
  | .bc => .b
  | .de => .d
  | .hl => .h

/-- The register that is a pair's low byte (R22). -/
def Pair.low : Pair → Reg8
  | .bc => .c
  | .de => .e
  | .hl => .l

/-- Reading a pair composes its two bytes (R22, R23). -/
def getPair (s : State) (p : Pair) : Word := joinBytes (getReg s p.high) (getReg s p.low)

/-- Writing a pair splits the word over its two bytes (R22). -/
def setPair (s : State) (p : Pair) (w : Word) : State := setReg (setReg s p.high (hi8 w)) p.low (lo8 w)

/-- `sp <- w` (R8, R25). -/
def setSP (s : State) (w : Word) : State := { s with sp := w }

/-- `pc <- w` (R8, R26). -/
def setPC (s : State) (w : Word) : State := { s with pc := w }

/-- `cycles <- n` (R8, R34). -/
def setCycles (s : State) (n : Nat) : State := { s with cycles := n }

/-! ### Fetch -/

/-- `fetch()` (R80): the byte at PC; PC advances by 1 modulo 2^16 (decision D3, log entry 3). -/
def fetch (s : State) : Byte × State := (readByte s s.pc, setPC s (s.pc + 1))

/-- `fetch16()` (R81): exactly two fetches, low byte first (decision D6, log entry 6). -/
def fetch16 (s : State) : Word × State :=
  (joinBytes (fetch (fetch s).2).1 (fetch s).1, (fetch (fetch s).2).2)

/-- The byte sequence of one instruction and the state after its fetches. -/
structure Fetched where
  b0   : Byte
  b1   : Byte
  b2   : Byte
  left : State

/-- Fetch the bytes of the instruction at PC, one `fetch` a byte and only as many as its first byte asks for (R82, R83,
R87). A byte that the instruction does not have is not fetched; it stands as zero and the decoder does not look at it. -/
def fetchInstr (s : State) : Fetched :=
  let (op, s1) := fetch s
  if instrLength op = 1 then ⟨op, 0x00, 0x00, s1⟩
  else
    let (b1, s2) := fetch s1
    if instrLength op = 2 then ⟨op, b1, 0x00, s2⟩
    else
      let (b2, s3) := fetch s2
      ⟨op, b1, b2, s3⟩

/-! ### The stack -/

/-- One byte pushed: SP is lowered first, modulo 2^16 (R25, R133; decision D4, log entry 4). -/
def pushByte (s : State) (v : Byte) : State := writeByte (setSP s (s.sp - 1)) (s.sp - 1) v

/-- A word pushed: the high byte first, at the higher address (R54, R133; for CALL nn decision D8, log entry 8). -/
def pushWord (s : State) (w : Word) : State := pushByte (pushByte s (hi8 w)) (lo8 w)

/-! ### The end of a step -/

/-- `cycles <- n`, the last effect of every instruction, and success (R12, R34, R65). -/
def retire (n : Nat) (s : State) : Host.Outcome State Fault Refusal := .next (setCycles s n)

/-- `raise DecodeError(info)` (R11, R170): the step returns the error. `s` is the state after the fetches; control goes
nowhere, nothing is saved and nothing else changes (R175; decision D11, log entry 11). There is no return from it: the
machine is ready to fetch the next instruction (R177). -/
def raiseDecodeError (info : DecodeError) (s : State) : Host.Outcome State Fault Refusal :=
  .fault (.decodeError info s)

end Sys2Proof.Machine
end

