-- ==== Sys2Proof/Machine/Flags.lean ====
section
/-! DEFINITION. The flag accessor (10_state.md R29, R31), the condition NZ (44_control.md R161), and every computation
that yields a flag: `inc8` (42_alu.md R140), `rl8` (43_rotates_bits.md R150), the tested bit (R153). -/

namespace Sys2Proof.Machine

/-! ### The accessor -/

/-- The bit of F that holds a flag (R29). -/
def flagBit : Flag → Nat
  | .z => 7
  | .n => 6
  | .h => 5
  | .c => 4

/-- The flag getter (R31). -/
def getFlag (s : State) (x : Flag) : Bool := s.f.getLsbD (flagBit x)

/-- The flag setter (R31): one bit of F is written, the other seven are kept. -/
def setFlag (s : State) (x : Flag) (v : Bool) : State :=
  { s with f := (s.f &&& ~~~(1#8 <<< flagBit x)) ||| ((BitVec.ofBool v).setWidth 8 <<< flagBit x) }

/-- Write Z, N and H and keep the carry flag (R32, R33: INC C, BIT 7,H). -/
def setZNH (s : State) (z n h : Bool) : State := setFlag (setFlag (setFlag s .z z) .n n) .h h

/-- Write all four flags (R32: RLA, XOR A, RL C). -/
def setZNHC (s : State) (z n h c : Bool) : State := setFlag (setZNH s z n h) .c c

/-! ### The condition -/

/-- `JR_NZ_TAKEN_WHEN_Z` (R4; decision D2, log entry 13): the branch is taken when Z is clear. -/
def jrNZTakenWhenZ : Bool := false

/-- The condition NZ (R161). -/
def condNZ (s : State) : Bool := getFlag s .z == jrNZTakenWhenZ

/-! ### The ALU -/

/-- `inc8(x)` (R140): the wrapped result, whether it is zero, and the carry from bit 3 to bit 4. -/
def inc8 (x : Byte) : Byte × Bool × Bool :=
  (x + 1, x + 1 == 0x00, decide ((x &&& 0x0F).toNat + 1 > 0x0F))

/-- `rl8(x, cin)` (R150): the 9-bit rotation of carry and byte one place to the left. -/
def rl8 (x : Byte) (cin : Bool) : Byte × Bool :=
  ((x <<< 1) ||| (BitVec.ofBool cin).setWidth 8, x.getLsbD 7)

/-- Bit `k` of a byte (R6, R153). -/
def testBit (x : Byte) (k : Nat) : Bool := x.getLsbD k

end Sys2Proof.Machine
end

