-- ==== Sys2Proof/Machine/Alu.lean ====
section
/-! DEFINITION. The arithmetic and logic instructions (42_alu.md R141, R142). -/

namespace Sys2Proof.Machine

/-- INC C (R141): Z, N, H are written, the carry flag is kept (decision D10, log entry 10). -/
def execIncC (s : State) : Host.Outcome State Fault Refusal :=
  let (r, z, hcarry) := inc8 (getReg s .c)
  retire 4 (setZNH (setReg s .c r) z false hcarry)

/-- XOR A (R142). -/
def execXorA (s : State) : Host.Outcome State Fault Refusal :=
  retire 4 (setZNHC (setReg s .a (getReg s .a ^^^ getReg s .a)) true false false false)

end Sys2Proof.Machine
end

