-- ==== Sys2Proof/Machine/Operands.lean ====
section
/-! DEFINITION. Every addressing mode that reaches data memory (40_loads_8bit.md R119) and every target computation
(30_encoding.md R85). The stack mode is `pushByte` in Machine/Ops.lean; immediates are assembled by the decoder. -/

namespace Sys2Proof.Machine

/-- `HIGH_PAGE_BASE` (R4, R62). -/
def highPageBase : Word := 0xFF00

/-- `(DE)`: `{D, E}` (R119). -/
def addrDE (s : State) : Word := getPair s .de

/-- `(HL)` and, before its decrement, `(HL-)`: `{H, L}` (R119). -/
def addrHL (s : State) : Word := getPair s .hl

/-- The post-decrement of `(HL-)`: `HL <- (HL - 1) mod 2^16`, no flag written (R116, R119; decision D5, log entry 5). -/
def decHL (s : State) : State := setPair s .hl (getPair s .hl - 1)

/-- `(n)` and `(C)`: 0xFF00 plus a zero-extended byte (R62, R117, R118; decision D9, log entry 9). -/
def addrHighPage (n : Byte) : Word := highPageBase + zext16 n

/-- The target of JR NZ,r8: PC after the operand fetch plus the sign-extended offset, modulo 2^16 (R161; decisions D3
and D7, log entries 3 and 7). -/
def jrTarget (s : State) (r8 : Byte) : Word := s.pc + sext16 r8

end Sys2Proof.Machine
end

