-- ==== Sys2Proof/Machine/Control.lean ====
section
/-! DEFINITION. NOP and the control transfers (44_control.md R160 to R162). None writes F. -/

namespace Sys2Proof.Machine

/-- NOP (R160). -/
def execNop (s : State) : Host.Outcome State Fault Refusal := retire 4 s

/-- JR NZ,r8 (R161): 12 cycles when taken, 8 when not. -/
def execJrNZ (r8 : Byte) (s : State) : Host.Outcome State Fault Refusal :=
  if condNZ s then retire 12 (setPC s (jrTarget s r8)) else retire 8 s

/-- CALL nn (R162): the return address is PC after the operand. -/
def execCallNN (nn : Word) (s : State) : Host.Outcome State Fault Refusal := retire 24 (setPC (pushWord s s.pc) nn)

end Sys2Proof.Machine
end

