-- ==== Sys2Proof/Machine/Load16.lean ====
section
/-! DEFINITION. The 16-bit loads and the push (41_loads_16bit_stack.md R130 to R133). None touches F. -/

namespace Sys2Proof.Machine

/-- LD DE,d16 (R130). -/
def execLdDEd16 (d16 : Word) (s : State) : Host.Outcome State Fault Refusal := retire 12 (setPair s .de d16)

/-- LD HL,d16 (R131). -/
def execLdHLd16 (d16 : Word) (s : State) : Host.Outcome State Fault Refusal := retire 12 (setPair s .hl d16)

/-- LD SP,d16 (R132). -/
def execLdSPd16 (d16 : Word) (s : State) : Host.Outcome State Fault Refusal := retire 12 (setSP s d16)

/-- PUSH BC (R133). -/
def execPushBC (s : State) : Host.Outcome State Fault Refusal := retire 16 (pushWord s (getPair s .bc))

end Sys2Proof.Machine
end

