-- ==== Sys2Proof/Machine/Load8.lean ====
section
/-! DEFINITION. The 8-bit loads and stores (40_loads_8bit.md R110 to R118). None touches F. On entry PC is past the whole
instruction and its immediates are in the term (00_scope.md R12, 20_memory.md R65). -/

namespace Sys2Proof.Machine

/-- LD B,d8 (R110). -/
def execLdBd8 (d8 : Byte) (s : State) : Host.Outcome State Fault Refusal := retire 8 (setReg s .b d8)

/-- LD C,d8 (R111). -/
def execLdCd8 (d8 : Byte) (s : State) : Host.Outcome State Fault Refusal := retire 8 (setReg s .c d8)

/-- LD A,d8 (R112). -/
def execLdAd8 (d8 : Byte) (s : State) : Host.Outcome State Fault Refusal := retire 8 (setReg s .a d8)

/-- LD C,A (R113). -/
def execLdCA (s : State) : Host.Outcome State Fault Refusal := retire 4 (setReg s .c (getReg s .a))

/-- LD A,(DE) (R114). -/
def execLdAatDE (s : State) : Host.Outcome State Fault Refusal := retire 8 (setReg s .a (readByte s (addrDE s)))

/-- LD (HL),A (R115). -/
def execLdAtHLA (s : State) : Host.Outcome State Fault Refusal := retire 8 (writeByte s (addrHL s) (getReg s .a))

/-- LD (HL-),A (R116): the store uses HL before the decrement. -/
def execLdAtHLdecA (s : State) : Host.Outcome State Fault Refusal :=
  retire 8 (decHL (writeByte s (addrHL s) (getReg s .a)))

/-- LDH (n),A (R117). -/
def execLdhAtNA (n : Byte) (s : State) : Host.Outcome State Fault Refusal :=
  retire 12 (writeByte s (addrHighPage n) (getReg s .a))

/-- LD (C),A (R118). -/
def execLdAtCA (s : State) : Host.Outcome State Fault Refusal :=
  retire 8 (writeByte s (addrHighPage (getReg s .c)) (getReg s .a))

end Sys2Proof.Machine
end

