-- ==== Sys2Proof/Machine/Rotate.lean ====
section
/-! DEFINITION. The rotates through carry and the bit test (43_rotates_bits.md R151 to R153). -/

namespace Sys2Proof.Machine

/-- RLA (R151): Z is 0 even when the result is zero. -/
def execRla (s : State) : Host.Outcome State Fault Refusal :=
  let (r, cout) := rl8 (getReg s .a) (getFlag s .c)
  retire 4 (setZNHC (setReg s .a r) false false false cout)

/-- RL C (R152): Z follows the result. -/
def execRlC (s : State) : Host.Outcome State Fault Refusal :=
  let (r, cout) := rl8 (getReg s .c) (getFlag s .c)
  retire 8 (setZNHC (setReg s .c r) (r == 0x00) false false cout)

/-- BIT 7,H (R153): Z is the complement of the tested bit, the carry flag is kept (decision D10, log entry 10). -/
def execBit7H (s : State) : Host.Outcome State Fault Refusal :=
  retire 8 (setZNH s (!(testBit (getReg s .h) 7)) false true)

end Sys2Proof.Machine
end

