-- ==== Sys2Proof/Machine/Dispatch.lean ====
section
/-! DEFINITION. One arm for each of the 21 instructions of the dispatch table (30_encoding.md R82, R86). -/

namespace Sys2Proof.Machine

def exec (i : Instr) (s : State) : Host.Outcome State Fault Refusal :=
  match i with
  | .nop => Sys2Proof.Machine.execNop s
  | .ldBd8 d8 => Sys2Proof.Machine.execLdBd8 d8 s
  | .incC => Sys2Proof.Machine.execIncC s
  | .ldCd8 d8 => Sys2Proof.Machine.execLdCd8 d8 s
  | .ldDEd16 d16 => Sys2Proof.Machine.execLdDEd16 d16 s
  | .rla => Sys2Proof.Machine.execRla s
  | .ldAatDE => Sys2Proof.Machine.execLdAatDE s
  | .jrNZ r8 => Sys2Proof.Machine.execJrNZ r8 s
  | .ldHLd16 d16 => Sys2Proof.Machine.execLdHLd16 d16 s
  | .ldSPd16 d16 => Sys2Proof.Machine.execLdSPd16 d16 s
  | .ldAtHLdecA => Sys2Proof.Machine.execLdAtHLdecA s
  | .ldAd8 d8 => Sys2Proof.Machine.execLdAd8 d8 s
  | .ldCA => Sys2Proof.Machine.execLdCA s
  | .ldAtHLA => Sys2Proof.Machine.execLdAtHLA s
  | .xorA => Sys2Proof.Machine.execXorA s
  | .pushBC => Sys2Proof.Machine.execPushBC s
  | .rlC => Sys2Proof.Machine.execRlC s
  | .bit7H => Sys2Proof.Machine.execBit7H s
  | .callNN nn => Sys2Proof.Machine.execCallNN nn s
  | .ldhAtNA n => Sys2Proof.Machine.execLdhAtNA n s
  | .ldAtCA => Sys2Proof.Machine.execLdAtCA s

end Sys2Proof.Machine
end

