-- ==== Sys2Proof/Machine/Step.lean ====
section
/-! DEFINITION. One step (30_encoding.md R83, 60_exceptions.md R185): fetch one instruction, decode it, execute it or
return the decode failure. `withFetchWord` places an instruction where the next step fetches. -/

namespace Sys2Proof.Machine

/-- `step()` (R83): "fetch one opcode, call decode; propagate any decode failure to the caller unmodified, otherwise
report success". All instruction bytes are fetched before any other effect (R65, decision D22). -/
def step (s : State) : Host.Outcome State Fault Refusal :=
  let g := fetchInstr s
  match decode g.b0 g.b1 g.b2 with
  | .ok i => exec i g.left
  | .error info => raiseDecodeError info g.left

/-- The state with the instruction of a table word (`decodeTableWord`) stored at PC, three bytes in stream order. It
stands for the loader's work before the first step (60_exceptions.md R187; log entry 22). -/
def State.withFetchWord (s : State) (nbits w : Nat) : State := writeBytes s s.pc (tableBytes nbits w)

end Sys2Proof.Machine
end

