-- ==== Sys2Proof/Machine/Environment.lean ====
section
/-! DEFINITION. The parties outside the core (60_exceptions.md R184 to R190) and the spec's OPEN parameters, each an
argument: the loader and the launch state with `INIT_MEM` (R187, 70_reset_and_hazards.md R203, D13), the driver with
`ON_DECODE_ERROR` and the ends of a run (R177, R204, D14, D15), and the read-only snapshot (R186). None of them is part
of `step`. -/

namespace Sys2Proof.Machine

/-! ### The loader and the launch state -/

/-- Bytes copied to rising keys from `a` on. -/
def Memory.load (a : Nat) : List Byte → Memory → Memory
  | [], m => m
  | v :: rest, m => Memory.load (a + 1) rest (Memory.put m a v)

/-- The loader (R187): the image is copied to `ROM_BASE` as opaque bytes. An image longer than the memory is outside the
block (R61, 93_implementation_defined.md U13): `none`. -/
def loadRom (image : List Byte) (m : Memory) : Option Memory :=
  if Config.romBase + image.length ≤ Config.memSize then some (Memory.load Config.romBase image m) else none

/-- The canonical launch state (R203): the reset state, with `INIT_MEM` in memory and the ROM image over it from address
0. `initMem` is the spec's OPEN parameter (R40, D13). -/
def launch (initMem : Word → Byte) (image : List Byte) : Option State :=
  (loadRom image (Memory.ofFun initMem)).map fun m => { State.reset with mem := m }

/-! ### The driver -/

/-- One call of `step` by a driver with a policy for decode failures (R177): under `halt` the run ends at the failure,
under `continue` it goes on from the state the failure left. -/
def driverStep (policy : Config.OnDecodeError) (s : State) : Host.Outcome State Fault Refusal :=
  match step s with
  | .next t => .next t
  | .fault (.decodeError info t) =>
    match policy with
    | .halt => .fault (.decodeError info t)
    | .resume => .next t
  | .refused r => .refused r

/-- A run that ends after `n` steps (R204 (i)), or under `halt` at the first decode failure (R204 (ii)). -/
def drive (policy : Config.OnDecodeError) : Nat → State → Host.Outcome State Fault Refusal
  | 0, s => .next s
  | n + 1, s =>
    match driverStep policy s with
    | .next t => drive policy n t
    | .fault r => .fault r
    | .refused r => .refused r

/-- A run that ends when PC equals the driver's stop address between steps (R204 (iii)), or after `n` steps, or under
`halt` at the first decode failure. DESIGN CHOICE, log entry 27: the test comes before every step, the first included, so
a run launched with PC at the stop address takes no step; the rule says only "between steps". -/
def driveUntil (policy : Config.OnDecodeError) (stop : Word) : Nat → State → Host.Outcome State Fault Refusal
  | 0, s => .next s
  | n + 1, s =>
    if s.pc = stop then .next s
    else
      match driverStep policy s with
      | .next t => driveUntil policy stop n t
      | .fault r => .fault r
      | .refused r => .refused r

/-! ### The snapshot -/

/-- What a debug or display collaborator reads between steps (R186): the eight 8-bit registers, PC, SP and the four
flags. `cycles` is not in it (91_not_in_source.md N11). -/
structure Snapshot where
  a : Byte
  b : Byte
  c : Byte
  d : Byte
  e : Byte
  f : Byte
  h : Byte
  l : Byte
  pc : Word
  sp : Word
  flagZ : Bool
  flagN : Bool
  flagH : Bool
  flagC : Bool
  deriving DecidableEq, Repr

/-- The snapshot of a state (R186); it changes nothing. -/
def snapshot (s : State) : Snapshot where
  a := s.a
  b := s.b
  c := s.c
  d := s.d
  e := s.e
  f := s.f
  h := s.h
  l := s.l
  pc := s.pc
  sp := s.sp
  flagZ := getFlag s .z
  flagN := getFlag s .n
  flagH := getFlag s .h
  flagC := getFlag s .c

end Sys2Proof.Machine
end

