-- ==== Sys2Proof/Safety.lean ====
section
/-! DEFINITION. The terms claims are stated in: valid states and the model's invariant, what a step leaves unchanged, the
complete tables of the spec (who writes a register, a flag, memory; what `cycles` becomes; how long an instruction is),
and safe runs. -/

namespace Sys2Proof.Machine

/-! ### Valid states -/

/-- "A state is valid when `F[3:0] = 0`" (10_state.md R42, R30). -/
def State.valid (s : State) : Bool := s.f.extractLsb' 0 4 == 0#4

/-- The invariant: the state is valid and its memory list is canonical. -/
def State.inv (s : State) : Bool := s.valid && Memory.wf s.mem

/-! ### Frames -/

/-- Every 8-bit register that instructions name keeps its value, but for those listed. -/
def RegsKept (changed : List Reg8) (s t : State) : Prop := ∀ r, r ∉ changed → getReg t r = getReg s r

/-- Every bit of F keeps its value, but for the listed flags' own bits. -/
def FlagsKept (changed : List Flag) (s t : State) : Prop :=
  ∀ k, (∀ x ∈ changed, flagBit x ≠ k) → t.f.getLsbD k = s.f.getLsbD k

/-- Every cell outside the listed addresses reads as before. -/
def MemKept (stored : List Word) (s t : State) : Prop := ∀ a, a ∉ stored → readByte t a = readByte s a

/-- Everything of the register file's bytes, F and memory is kept, but for what is listed. -/
structure KeptBut (regs : List Reg8) (flags : List Flag) (stored : List Word) (s t : State) : Prop where
  regs : RegsKept regs s t
  flags : FlagsKept flags s t
  mem : MemKept stored s t

/-! ### The spec's complete tables -/

/-- The registers each instruction writes (10_state.md R21). -/
def writtenRegs : Instr → List Reg8
  | .nop => []
  | .ldBd8 _ => [.b]
  | .incC => [.c]
  | .ldCd8 _ => [.c]
  | .ldDEd16 _ => [.d, .e]
  | .rla => [.a]
  | .ldAatDE => [.a]
  | .jrNZ _ => []
  | .ldHLd16 _ => [.h, .l]
  | .ldSPd16 _ => []
  | .ldAtHLdecA => [.h, .l]
  | .ldAd8 _ => [.a]
  | .ldCA => [.c]
  | .ldAtHLA => []
  | .xorA => [.a]
  | .pushBC => []
  | .rlC => [.c]
  | .bit7H => []
  | .callNN _ => []
  | .ldhAtNA _ => []
  | .ldAtCA => []

/-- The flags each instruction writes (10_state.md R32). -/
def writtenFlags : Instr → List Flag
  | .nop => []
  | .ldBd8 _ => []
  | .incC => [.z, .n, .h]
  | .ldCd8 _ => []
  | .ldDEd16 _ => []
  | .rla => [.z, .n, .h, .c]
  | .ldAatDE => []
  | .jrNZ _ => []
  | .ldHLd16 _ => []
  | .ldSPd16 _ => []
  | .ldAtHLdecA => []
  | .ldAd8 _ => []
  | .ldCA => []
  | .ldAtHLA => []
  | .xorA => [.z, .n, .h, .c]
  | .pushBC => []
  | .rlC => [.z, .n, .h, .c]
  | .bit7H => [.z, .n, .h]
  | .callNN _ => []
  | .ldhAtNA _ => []
  | .ldAtCA => []

/-- The addresses each instruction stores to, from the state in which it executes (20_memory.md R57). -/
def storedAddrs (i : Instr) (s : State) : List Word :=
  match i with
  | .nop => []
  | .ldBd8 _ => []
  | .incC => []
  | .ldCd8 _ => []
  | .ldDEd16 _ => []
  | .rla => []
  | .ldAatDE => []
  | .jrNZ _ => []
  | .ldHLd16 _ => []
  | .ldSPd16 _ => []
  | .ldAtHLdecA => [addrHL s]
  | .ldAd8 _ => []
  | .ldCA => []
  | .ldAtHLA => [addrHL s]
  | .xorA => []
  | .pushBC => [s.sp - 1, s.sp - 2]
  | .rlC => []
  | .bit7H => []
  | .callNN _ => [s.sp - 1, s.sp - 2]
  | .ldhAtNA n => [addrHighPage n]
  | .ldAtCA => [addrHighPage s.c]

/-- What each instruction makes of SP (10_state.md R21, R25). -/
def spAfter (i : Instr) (s : State) : Word :=
  match i with
  | .ldSPd16 d16 => d16
  | .pushBC => s.sp - 2
  | .callNN _ => s.sp - 2
  | .nop => s.sp
  | .ldBd8 _ => s.sp
  | .incC => s.sp
  | .ldCd8 _ => s.sp
  | .ldDEd16 _ => s.sp
  | .rla => s.sp
  | .ldAatDE => s.sp
  | .jrNZ _ => s.sp
  | .ldHLd16 _ => s.sp
  | .ldAtHLdecA => s.sp
  | .ldAd8 _ => s.sp
  | .ldCA => s.sp
  | .ldAtHLA => s.sp
  | .xorA => s.sp
  | .rlC => s.sp
  | .bit7H => s.sp
  | .ldhAtNA _ => s.sp
  | .ldAtCA => s.sp

/-- The Cycles column (70_reset_and_hazards.md R209); JR NZ,r8 reads Z, the bit 7 of F. -/
def cyclesOf (i : Instr) (s : State) : Nat :=
  match i with
  | .nop => 4
  | .ldBd8 _ => 8
  | .incC => 4
  | .ldCd8 _ => 8
  | .ldDEd16 _ => 12
  | .rla => 4
  | .ldAatDE => 8
  | .jrNZ _ => if s.f.getLsbD 7 then 8 else 12
  | .ldHLd16 _ => 12
  | .ldSPd16 _ => 12
  | .ldAtHLdecA => 8
  | .ldAd8 _ => 8
  | .ldCA => 4
  | .ldAtHLA => 8
  | .xorA => 4
  | .pushBC => 16
  | .rlC => 8
  | .bit7H => 8
  | .callNN _ => 24
  | .ldhAtNA _ => 12
  | .ldAtCA => 8

/-! ### Bytes at PC and safe runs -/

/-- The byte `k` places after PC, modulo 2^16 (30_encoding.md R84, R96). -/
def byteAt (s : State) (k : Nat) : Byte := readByte s (s.pc + BitVec.ofNat 16 k)

/-- The addresses the next step reads (20_memory.md R57): the bytes of its instruction, and DE for LD A,(DE). -/
def readAddrs (s : State) : List Word :=
  (List.range (instrLength (byteAt s 0))).map (fun k => s.pc + BitVec.ofNat 16 k) ++
    (if byteAt s 0 = 0x1A then [addrDE s] else [])

/-- The next step executes an instruction. -/
def SafeStep (s : State) : Prop := ∃ t, step s = .next t

/-- `n` steps in a row each execute an instruction: no decode failure under the policy `halt`. -/
def SafeRun (n : Nat) (s : State) : Prop := ∃ t, drive .halt n s = .next t

end Sys2Proof.Machine
end

