-- ==== Sys2Proof/Certificates/Slice0/Obligations.lean ====
section
/-! DEFINITION. The statements for the provers, from the numbered rules of spec/. A clause that rests on a decision of the
spec (92_eei_decisions.md, marked in the rule) or on a choice of the model says so in its docstring and is entered in
OBLIGATIONS.json with basis 'derived'.

The result statement of an instruction has two parts. The first says that `exec` completes in every state, with the
result, `cycles`, and everything else kept. The second says which bytes at PC make a step that instruction and where its
operands come from, through `fetch` and `fetch16`, which `FetchReadsAtPCAndAdvances` states by themselves. -/

open Sys2Proof Sys2Proof.Machine

/-! ## Encoding and the step -/

/-- R83, R27: the bytes at PC decode to `i`; the step executes `i` with PC past the instruction (modulo 2^16: decision
D3, log entry 3). -/
def Obligations.StepExecutesTheDecodedInstruction : Prop :=
  ∀ (s : State) (i : Instr), decode (byteAt s 0) (byteAt s 1) (byteAt s 2) = .ok i → i.wellFormed = true →
    step s = exec i { s with pc := s.pc + BitVec.ofNat 16 i.length }

/-- R84 to R86: words of the rules' own examples, byte by byte, one for each family. -/
def Obligations.ExampleWordsDecode : Prop :=
  decodeBytes [0x06, 0x02] = .ok (.ldBd8 0x02) ∧
  decodeBytes [0x3E, 0x05] = .ok (.ldAd8 0x05) ∧
  decodeBytes [0xE0, 0x47] = .ok (.ldhAtNA 0x47) ∧
  decodeBytes [0x11, 0x04, 0x01] = .ok (.ldDEd16 0x0104) ∧
  decodeBytes [0x21, 0xFF, 0x9F] = .ok (.ldHLd16 0x9FFF) ∧
  decodeBytes [0x31, 0xFE, 0xFF] = .ok (.ldSPd16 0xFFFE) ∧
  decodeBytes [0xC5] = .ok .pushBC ∧
  decodeBytes [0x0C] = .ok .incC ∧
  decodeBytes [0xAF] = .ok .xorA ∧
  decodeBytes [0x17] = .ok .rla ∧
  decodeBytes [0xCB, 0x11] = .ok .rlC ∧
  decodeBytes [0xCB, 0x7C] = .ok .bit7H ∧
  decodeBytes [0x20, 0xFB] = .ok (.jrNZ 0xFB) ∧
  decodeBytes [0xCD, 0x10, 0x00] = .ok (.callNN 0x0010)

/-- R84 to R86: decoding an instruction's encoding gives it back, every operand at every value, whatever bytes follow. -/
def Obligations.DecodeOfEncodeIsTheInstruction : Prop :=
  ∀ (i : Instr) (rest : List Byte), i.wellFormed = true → decodeBytes (encode i ++ rest) = .ok i

/-- R85 to R89: what decodes to `i` begins with the encoding of `i`: each instruction has one encoding, and no bit of it
is ignored. -/
def Obligations.EncodeOfDecodeIsTheBytes : Prop :=
  ∀ (op b1 b2 : Byte) (i : Instr), decode op b1 b2 = .ok i → encode i = [op, b1, b2].take i.length

/-- R90: a first byte outside the 20 of the membership list fails as `Unknown` carrying that byte, no operand byte is
fetched, only such a byte does, and there are 236 of them. The state left is the state after that one fetch, `cycles`
kept (R175, decision D11, log entry 11). -/
def Obligations.UnrecognisedFirstByteFailsByName : Prop :=
  let known : List Byte := [0x00, 0x06, 0x0C, 0x0E, 0x11, 0x17, 0x1A, 0x20, 0x21, 0x31, 0x32, 0x3E, 0x4F, 0x77, 0xAF,
    0xC5, 0xCB, 0xCD, 0xE0, 0xE2]
  (∀ s : State, (fetch s).1 ∉ known → step s = .fault (.decodeError (.unknown (fetch s).1) (fetch s).2)) ∧
  (∀ (s t : State) (op : Byte), step s = .fault (.decodeError (.unknown op) t) → (fetch s).1 = op ∧ op ∉ known) ∧
  ((List.range 256).filter fun n => decide (BitVec.ofNat 8 n ∉ known)).length = 236

/-- R91: after the prefix, a byte other than 0x11 and 0x7C fails as `UnknownCB` carrying that byte, both bytes fetched,
only such a byte does, and there are 254 of them. The state left is the state after those two fetches, `cycles` kept
(R175, decision D11, log entry 11). -/
def Obligations.UnrecognisedSubOpcodeFailsByName : Prop :=
  (∀ s : State, (fetch s).1 = 0xCB → (fetch (fetch s).2).1 ≠ 0x11 → (fetch (fetch s).2).1 ≠ 0x7C →
    step s = .fault (.decodeError (.unknownCB (fetch (fetch s).2).1) (fetch (fetch s).2).2)) ∧
  (∀ (s t : State) (sb : Byte), step s = .fault (.decodeError (.unknownCB sb) t) →
    (fetch s).1 = 0xCB ∧ (fetch (fetch s).2).1 = sb ∧ sb ≠ 0x11 ∧ sb ≠ 0x7C) ∧
  ((List.range 256).filter fun n => decide (BitVec.ofNat 8 n ≠ 0x11 ∧ BitVec.ofNat 8 n ≠ 0x7C)).length = 254

/-- R175 (decision D11, log entry 11): a decode failure changes PC alone, by 1, or by 2 after the prefix. -/
def Obligations.DecodeFailureChangesOnlyPC : Prop :=
  ∀ (s t : State) (info : DecodeError), step s = .fault (.decodeError info t) →
    (info = .unknown (byteAt s 0) ∧ t = { s with pc := s.pc + 1 }) ∨
    (byteAt s 0 = 0xCB ∧ info = .unknownCB (byteAt s 1) ∧ t = { s with pc := s.pc + 2 })

/-- R92, R174: a step executes exactly when a row of the dispatch table selects the bytes at PC, and otherwise fails to
decode; there is no third outcome. -/
def Obligations.StepExecutesExactlyTheTable : Prop :=
  ∀ s : State,
    (rowSelected [byteAt s 0, byteAt s 1] = true → ∃ t, step s = .next t) ∧
    (rowSelected [byteAt s 0, byteAt s 1] = false → ∃ info t, step s = .fault (.decodeError info t))

/-- R171, R180: none of the 21 instructions can raise anything; each completes in every state. -/
def Obligations.EveryInstructionCompletes : Prop :=
  ∀ (i : Instr) (s : State), ∃ t, exec i s = .next t

/-- R80, R81: `fetch` returns the byte at PC and changes PC alone, by 1; `fetch16` returns the two bytes low byte first
and changes PC alone, by 2 (modulo 2^16: decisions D3 and D6, log entries 3 and 6). -/
def Obligations.FetchReadsAtPCAndAdvances : Prop :=
  ∀ s : State,
    (fetch s).1 = readByte s s.pc ∧ (fetch s).2 = { s with pc := s.pc + 1 } ∧
    (fetch16 s).1.toNat = (readByte s s.pc).toNat + 256 * (readByte s (s.pc + 1)).toNat ∧
    (fetch16 s).2 = { s with pc := s.pc + 2 }

/-! ## 8-bit loads and stores -/

/-- R110, R111, R112: LD B,d8; LD C,d8; LD A,d8. -/
def Obligations.LoadImmediateByte : Prop :=
  (∀ (s : State) (d8 : Byte), ∃ t, exec (.ldBd8 d8) s = .next t ∧
    t.b = d8 ∧ getPair t .bc = joinBytes d8 s.c ∧ t.cycles = 8 ∧ t.pc = s.pc ∧ t.sp = s.sp ∧ KeptBut [.b] [] [] s t) ∧
  (∀ (s : State) (d8 : Byte), ∃ t, exec (.ldCd8 d8) s = .next t ∧
    t.c = d8 ∧ getPair t .bc = joinBytes s.b d8 ∧ t.cycles = 8 ∧ t.pc = s.pc ∧ t.sp = s.sp ∧ KeptBut [.c] [] [] s t) ∧
  (∀ (s : State) (d8 : Byte), ∃ t, exec (.ldAd8 d8) s = .next t ∧
    t.a = d8 ∧ t.cycles = 8 ∧ t.pc = s.pc ∧ t.sp = s.sp ∧ KeptBut [.a] [] [] s t) ∧
  (∀ s : State, (fetch s).1 = 0x06 → step s = exec (.ldBd8 (fetch (fetch s).2).1) (fetch (fetch s).2).2) ∧
  (∀ s : State, (fetch s).1 = 0x0E → step s = exec (.ldCd8 (fetch (fetch s).2).1) (fetch (fetch s).2).2) ∧
  (∀ s : State, (fetch s).1 = 0x3E → step s = exec (.ldAd8 (fetch (fetch s).2).1) (fetch (fetch s).2).2)

/-- R113: LD C,A. -/
def Obligations.LoadCFromA : Prop :=
  (∀ s : State, ∃ t, exec .ldCA s = .next t ∧
    t.c = s.a ∧ getPair t .bc = joinBytes s.b s.a ∧ t.cycles = 4 ∧ t.pc = s.pc ∧ t.sp = s.sp ∧ KeptBut [.c] [] [] s t) ∧
  (∀ s : State, (fetch s).1 = 0x4F → step s = exec .ldCA (fetch s).2)

/-- R114: LD A,(DE), at every DE. -/
def Obligations.LoadAThroughDE : Prop :=
  (∀ s : State, ∃ t, exec .ldAatDE s = .next t ∧
    t.a = readByte s (getPair s .de) ∧ t.cycles = 8 ∧ t.pc = s.pc ∧ t.sp = s.sp ∧ KeptBut [.a] [] [] s t) ∧
  (∀ s : State, (fetch s).1 = 0x1A → step s = exec .ldAatDE (fetch s).2)

/-- R115: LD (HL),A stores A at HL and at no other address. -/
def Obligations.StoreAThroughHL : Prop :=
  (∀ s : State, ∃ t, exec .ldAtHLA s = .next t ∧
    readByte t (addrHL s) = s.a ∧ t.cycles = 8 ∧ t.pc = s.pc ∧ t.sp = s.sp ∧ KeptBut [] [] [addrHL s] s t) ∧
  (∀ s : State, (fetch s).1 = 0x77 → step s = exec .ldAtHLA (fetch s).2)

/-- R116: LD (HL-),A stores at the old HL, then lowers HL by 1 (modulo 2^16: decision D5, log entry 5); no flag is
written. -/
def Obligations.StoreAThroughHLThenDecrement : Prop :=
  (∀ s : State, ∃ t, exec .ldAtHLdecA s = .next t ∧
    readByte t (addrHL s) = s.a ∧ getPair t .hl = getPair s .hl - 1 ∧ t.cycles = 8 ∧ t.pc = s.pc ∧ t.sp = s.sp ∧
    KeptBut [.h, .l] [] [addrHL s] s t) ∧
  (∀ s : State, (fetch s).1 = 0x32 → step s = exec .ldAtHLdecA (fetch s).2)

/-- R117, R118, R62: LDH (n),A and LD (C),A store A at the address whose high byte is 0xFF and whose low byte is n or
register C (decision D9, log entry 9), and at no other; n is the byte after the opcode (decision D20, log entry 15). -/
def Obligations.StoreAToTheHighPage : Prop :=
  (∀ (s : State) (n : Byte), ∃ t, exec (.ldhAtNA n) s = .next t ∧
    addrHighPage n = joinBytes 0xFF n ∧ readByte t (addrHighPage n) = s.a ∧ t.cycles = 12 ∧ t.pc = s.pc ∧
    t.sp = s.sp ∧ KeptBut [] [] [addrHighPage n] s t) ∧
  (∀ s : State, ∃ t, exec .ldAtCA s = .next t ∧
    addrHighPage s.c = joinBytes 0xFF s.c ∧ readByte t (addrHighPage s.c) = s.a ∧ t.cycles = 8 ∧ t.pc = s.pc ∧
    t.sp = s.sp ∧ KeptBut [] [] [addrHighPage s.c] s t) ∧
  (∀ s : State, (fetch s).1 = 0xE0 → step s = exec (.ldhAtNA (fetch (fetch s).2).1) (fetch (fetch s).2).2) ∧
  (∀ s : State, (fetch s).1 = 0xE2 → step s = exec .ldAtCA (fetch s).2)

/-! ## 16-bit loads and the push -/

/-- R130, R131, R132: LD DE,d16; LD HL,d16; LD SP,d16. -/
def Obligations.LoadImmediateWord : Prop :=
  (∀ (s : State) (d16 : Word), ∃ t, exec (.ldDEd16 d16) s = .next t ∧
    t.d = hi8 d16 ∧ t.e = lo8 d16 ∧ getPair t .de = d16 ∧ t.cycles = 12 ∧ t.pc = s.pc ∧ t.sp = s.sp ∧
    KeptBut [.d, .e] [] [] s t) ∧
  (∀ (s : State) (d16 : Word), ∃ t, exec (.ldHLd16 d16) s = .next t ∧
    t.h = hi8 d16 ∧ t.l = lo8 d16 ∧ getPair t .hl = d16 ∧ t.cycles = 12 ∧ t.pc = s.pc ∧ t.sp = s.sp ∧
    KeptBut [.h, .l] [] [] s t) ∧
  (∀ (s : State) (d16 : Word), ∃ t, exec (.ldSPd16 d16) s = .next t ∧
    t.sp = d16 ∧ t.cycles = 12 ∧ t.pc = s.pc ∧ KeptBut [] [] [] s t) ∧
  (∀ s : State, (fetch s).1 = 0x11 → step s = exec (.ldDEd16 (fetch16 (fetch s).2).1) (fetch16 (fetch s).2).2) ∧
  (∀ s : State, (fetch s).1 = 0x21 → step s = exec (.ldHLd16 (fetch16 (fetch s).2).1) (fetch16 (fetch s).2).2) ∧
  (∀ s : State, (fetch s).1 = 0x31 → step s = exec (.ldSPd16 (fetch16 (fetch s).2).1) (fetch16 (fetch s).2).2)

/-- R133: PUSH BC stores B at SP-1 and C at SP-2 and lowers SP by 2 (modulo 2^16: decision D4, log entry 4), and stores
nowhere else. -/
def Obligations.PushBCStoresBothBytes : Prop :=
  (∀ s : State, ∃ t, exec .pushBC s = .next t ∧
    readByte t (s.sp - 1) = s.b ∧ readByte t (s.sp - 2) = s.c ∧ t.sp = s.sp - 2 ∧ t.cycles = 16 ∧ t.pc = s.pc ∧
    KeptBut [] [] [s.sp - 1, s.sp - 2] s t) ∧
  (∀ s : State, (fetch s).1 = 0xC5 → step s = exec .pushBC (fetch s).2)

/-- R54, R134: after PUSH BC, and after CALL nn, the word at the new SP read low byte first is BC, or the return address,
and SP + 2 is the old SP: what a pop performed from outside would restore (decisions D4 and D8, log entries 4 and 8). -/
def Obligations.PushedWordLiesLittleEndianAtTheTop : Prop :=
  (∀ s t : State, exec .pushBC s = .next t →
    readByte t t.sp = s.c ∧ readByte t (t.sp + 1) = s.b ∧
    joinBytes (readByte t (t.sp + 1)) (readByte t t.sp) = getPair s .bc ∧ t.sp + 2 = s.sp) ∧
  (∀ (s t : State) (nn : Word), exec (.callNN nn) s = .next t →
    joinBytes (readByte t (t.sp + 1)) (readByte t t.sp) = s.pc ∧ t.sp + 2 = s.sp)

/-! ## ALU, rotates, bit test -/

/-- R140, R141: INC C. The carry flag is kept (decision D10, log entry 10), B too. -/
def Obligations.IncrementC : Prop :=
  (∀ s : State, ∃ t, exec .incC s = .next t ∧
    t.c.toNat = (s.c.toNat + 1) % 256 ∧ (getFlag t .z = true ↔ s.c = 0xFF) ∧ getFlag t .n = false ∧
    (getFlag t .h = true ↔ s.c.toNat % 16 = 15) ∧ getFlag t .c = getFlag s .c ∧ t.cycles = 4 ∧ t.pc = s.pc ∧
    t.sp = s.sp ∧ KeptBut [.c] [.z, .n, .h] [] s t) ∧
  (∀ s : State, (fetch s).1 = 0x0C → step s = exec .incC (fetch s).2)

/-- R142: XOR A, whatever A and F were. In a valid state F is 0x80 afterwards. -/
def Obligations.XorAClearsA : Prop :=
  (∀ s : State, ∃ t, exec .xorA s = .next t ∧
    t.a = 0x00 ∧ getFlag t .z = true ∧ getFlag t .n = false ∧ getFlag t .h = false ∧ getFlag t .c = false ∧
    (s.valid = true → t.f = 0x80) ∧ t.cycles = 4 ∧ t.pc = s.pc ∧ t.sp = s.sp ∧
    KeptBut [.a] [.z, .n, .h, .c] [] s t) ∧
  (∀ s : State, (fetch s).1 = 0xAF → step s = exec .xorA (fetch s).2)

/-- R151: RLA. Z is 0 whatever the result. -/
def Obligations.RotateALeftThroughCarry : Prop :=
  (∀ s : State, ∃ t, exec .rla s = .next t ∧
    t.a.toNat = (2 * s.a.toNat + (getFlag s .c).toNat) % 256 ∧ getFlag t .z = false ∧ getFlag t .n = false ∧
    getFlag t .h = false ∧ (getFlag t .c = true ↔ 128 ≤ s.a.toNat) ∧ t.cycles = 4 ∧ t.pc = s.pc ∧ t.sp = s.sp ∧
    KeptBut [.a] [.z, .n, .h, .c] [] s t) ∧
  (∀ s : State, (fetch s).1 = 0x17 → step s = exec .rla (fetch s).2)

/-- R152: RL C. Z follows the result; the formula is RLA's applied to register C, which the spec marks as derived. -/
def Obligations.RotateCLeftThroughCarry : Prop :=
  (∀ s : State, ∃ t, exec .rlC s = .next t ∧
    t.c.toNat = (2 * s.c.toNat + (getFlag s .c).toNat) % 256 ∧ (getFlag t .z = true ↔ t.c = 0x00) ∧
    getFlag t .n = false ∧ getFlag t .h = false ∧ (getFlag t .c = true ↔ 128 ≤ s.c.toNat) ∧ t.cycles = 8 ∧
    t.pc = s.pc ∧ t.sp = s.sp ∧ KeptBut [.c] [.z, .n, .h, .c] [] s t) ∧
  (∀ s : State, (fetch s).1 = 0xCB → (fetch (fetch s).2).1 = 0x11 → step s = exec .rlC (fetch (fetch s).2).2)

/-- R150: nine rotations through carry bring register and carry flag back, for RLA and for RL C (decision D19, log entry
14). -/
def Obligations.NineRotationsRestore : Prop :=
  ∀ s : State,
    (∃ t, (fun o : Host.Outcome State Fault Refusal =>
        match o with
        | .next u => exec .rla u
        | .fault r => .fault r
        | .refused r => .refused r)^[9] (.next s) = .next t ∧ t.a = s.a ∧ getFlag t .c = getFlag s .c) ∧
    (∃ t, (fun o : Host.Outcome State Fault Refusal =>
        match o with
        | .next u => exec .rlC u
        | .fault r => .fault r
        | .refused r => .refused r)^[9] (.next s) = .next t ∧ t.c = s.c ∧ getFlag t .c = getFlag s .c)

/-- R153: BIT 7,H. Z is 1 exactly when HL is below 0x8000; the carry flag is kept (decision D10, log entry 10). -/
def Obligations.TestBit7OfH : Prop :=
  (∀ s : State, ∃ t, exec .bit7H s = .next t ∧
    (getFlag t .z = true ↔ s.h.toNat < 128) ∧ (getFlag t .z = true ↔ (getPair s .hl).toNat < 0x8000) ∧
    getFlag t .n = false ∧ getFlag t .h = true ∧ getFlag t .c = getFlag s .c ∧ t.cycles = 8 ∧ t.pc = s.pc ∧
    t.sp = s.sp ∧ KeptBut [] [.z, .n, .h] [] s t) ∧
  (∀ s : State, (fetch s).1 = 0xCB → (fetch (fetch s).2).1 = 0x7C → step s = exec .bit7H (fetch (fetch s).2).2)

/-! ## Control -/

/-- R160: NOP changes `cycles`, and PC by its fetch, and nothing else; where every byte of memory is 0 the machine never
stops and never fails, PC going round (modulo 2^16: decision D3, log entry 3). -/
def Obligations.NopDoesNothing : Prop :=
  (∀ s : State, exec .nop s = .next { s with cycles := 4 }) ∧
  (∀ s : State, (fetch s).1 = 0x00 → step s = exec .nop (fetch s).2) ∧
  (∀ (s : State) (n : Nat), (∀ a : Word, readByte s a = 0x00) →
    drive .halt (n + 1) s = .next { s with pc := s.pc + BitVec.ofNat 16 (n + 1), cycles := 4 })

/-- R161: JR NZ,r8 branches exactly when Z is clear (decision D2, log entry 13), to the address after its two bytes plus
the signed offset (decision D7, log entry 7), modulo 2^16 (decision D3, log entry 3). The operand is fetched either
way. -/
def Obligations.JumpRelativeWhenZClear : Prop :=
  (∀ (s : State) (r8 : Byte), getFlag s .z = false → ∃ t, exec (.jrNZ r8) s = .next t ∧
    (t.pc.toNat : Int) = ((s.pc.toNat : Int) + (if r8.toNat < 128 then (r8.toNat : Int) else (r8.toNat : Int) - 256)) % 65536 ∧
    t.cycles = 12 ∧ t.sp = s.sp ∧ KeptBut [] [] [] s t) ∧
  (∀ (s : State) (r8 : Byte), getFlag s .z = true → ∃ t, exec (.jrNZ r8) s = .next t ∧
    t.pc = s.pc ∧ t.cycles = 8 ∧ t.sp = s.sp ∧ KeptBut [] [] [] s t) ∧
  (∀ s : State, (fetch s).1 = 0x20 → step s = exec (.jrNZ (fetch (fetch s).2).1) (fetch (fetch s).2).2)

/-- R162: CALL nn pushes PC after its operand, high byte first (decision D8, log entry 8), SP modulo 2^16 (decision D4,
log entry 4), and goes to the operand as it was fetched, even where the pushes overwrite it (R65, decision D22, log entry
16). -/
def Obligations.CallPushesTheReturnAddress : Prop :=
  (∀ (s : State) (nn : Word), ∃ t, exec (.callNN nn) s = .next t ∧
    t.pc = nn ∧ readByte t (s.sp - 1) = hi8 s.pc ∧ readByte t (s.sp - 2) = lo8 s.pc ∧ t.sp = s.sp - 2 ∧
    t.cycles = 24 ∧ KeptBut [] [] [s.sp - 1, s.sp - 2] s t) ∧
  (∀ s : State, (fetch s).1 = 0xCD → step s = exec (.callNN (fetch16 (fetch s).2).1) (fetch16 (fetch s).2).2)

/-! ## State: accessors, reset, launch -/

/-- R22, R23: pairs are aliases of their two bytes. A read composes them and a write splits the word over them, with no
effect beyond the two. -/
def Obligations.PairsAreAliases : Prop :=
  (∀ s : State, getPair s .bc = joinBytes s.b s.c ∧ getPair s .de = joinBytes s.d s.e ∧
    getPair s .hl = joinBytes s.h s.l) ∧
  ∀ (s : State) (p : Pair),
    (∀ w : Word, getPair (setPair s p w) p = w) ∧
    (∀ w : Word, getReg (setPair s p w) p.high = hi8 w ∧ getReg (setPair s p w) p.low = lo8 w) ∧
    (∀ h l : Byte, (getPair (setReg (setReg s p.high h) p.low l) p).toNat = h.toNat * 256 + l.toNat) ∧
    (∀ v : Byte, getPair (setReg s p.high v) p = joinBytes v (getReg s p.low) ∧
      getPair (setReg s p.low v) p = joinBytes (getReg s p.high) v) ∧
    (∀ w : Word, (setPair s p w).pc = s.pc ∧ (setPair s p w).sp = s.sp ∧ (setPair s p w).cycles = s.cycles ∧
      KeptBut [p.high, p.low] [] [] s (setPair s p w))

/-- R29, R31: the getter returns the flag's bit of F, the setter sets or clears that bit and leaves the other seven, with
the masks 0x80, 0x40, 0x20, 0x10. -/
def Obligations.FlagAccessorTouchesOneBit : Prop :=
  ∀ (s : State) (x : Flag),
    let mask : Byte := match x with
      | .z => 0x80
      | .n => 0x40
      | .h => 0x20
      | .c => 0x10
    (getFlag s x = true ↔ s.f &&& mask = mask) ∧
    setFlag s x true = { s with f := s.f ||| mask } ∧
    setFlag s x false = { s with f := s.f &&& ~~~mask }

/-- R41: every register holds a value at reset, and that value is 0. -/
def Obligations.EveryRegisterIsZeroAtReset : Prop :=
  (∀ r : Reg8, getReg State.reset r = 0x00) ∧ (∀ p : Pair, getPair State.reset p = 0x0000) ∧
  (∀ x : Flag, getFlag State.reset x = false) ∧ State.reset.f = 0x00 ∧ State.reset.pc = 0x0000 ∧ State.reset.sp = 0x0000

/-- R42, R30: the invariant (F[3:0] = 0, and the memory list canonical, the model's own form: log entry 1) holds at
reset. -/
def Obligations.ResetSatisfiesTheInvariant : Prop := State.reset.inv = true

/-- R40, R187, R203: for EVERY `INIT_MEM` and every image that fits, there is a launch state: the reset registers,
`cycles` 0 (decision D12, log entry 12), the image at address 0, and `INIT_MEM` at every other address (decision D13, log
entry 1). -/
def Obligations.LaunchHoldsTheImageAndInitMem : Prop :=
  ∀ (initMem : Word → Byte) (image : List Byte), image.length ≤ 0x10000 →
    ∃ s, launch initMem image = some s ∧ { s with mem := [] } = State.reset ∧ s.inv = true ∧
      ∀ a : Word, readByte s a = image.getD a.toNat (initMem a)

/-- Log entry 1 (the model's own canonical form): memories that read alike at every address are the same list. -/
def Obligations.MemoriesThatReadAlikeAreEqual : Prop :=
  ∀ m m' : Memory, Memory.wf m = true → Memory.wf m' = true →
    (∀ a : Word, Memory.lookup m a.toNat = Memory.lookup m' a.toNat) → m = m'

/-! ## Whole-machine rules -/

/-- R30, R42: every step from a state that meets the invariant leaves one, whether it executes or fails to decode. That
the memory list is canonical is the model's own half of the invariant (DESIGN CHOICE, log entry 1); the state that a
failure leaves is R175's (decision D11, log entry 11). -/
def Obligations.StepKeepsTheInvariant : Prop :=
  ∀ s : State, s.inv = true →
    (∀ t, step s = .next t → t.inv = true) ∧ (∀ info t, step s = .fault (.decodeError info t) → t.inv = true)

/-- R30, R42: every state a driver reaches, under either policy and any end of the run (the model's driver: log entries 2
and 27), meets the invariant. That the memory list is canonical is the model's own half of the invariant (DESIGN CHOICE,
log entry 1); under `continue` a run goes on from the state that R175 leaves (decision D11, log entry 11). -/
def Obligations.RunsKeepTheInvariant : Prop :=
  ∀ (policy : Config.OnDecodeError) (stop : Word) (n : Nat) (s : State), s.inv = true →
    (∀ t, drive policy n s = .next t → t.inv = true) ∧ (∀ t, driveUntil policy stop n s = .next t → t.inv = true)

/-- R144: from a state with N clear, N is never 1, under either policy (log entry 2; the state a failure leaves: decision
D11, log entry 11). -/
def Obligations.SubtractFlagIsNeverSet : Prop :=
  ∀ (policy : Config.OnDecodeError) (n : Nat) (s t : State), getFlag s .n = false →
    drive policy n s = .next t → getFlag t .n = false

/-- R21: an instruction changes no 8-bit register outside its row of the table, and SP as the table says (modulo 2^16:
decision D4, log entry 4). -/
def Obligations.OnlyListedRegistersChange : Prop :=
  ∀ (i : Instr) (s t : State), exec i s = .next t → RegsKept (writtenRegs i) s t ∧ t.sp = spAfter i s

/-- R32, R33: an instruction changes no bit of F outside the flags its row names (decision D10, log entry 10). -/
def Obligations.OnlyListedFlagsChange : Prop :=
  ∀ (i : Instr) (s t : State), exec i s = .next t → FlagsKept (writtenFlags i) s t

/-- R57: an instruction changes no cell outside the addresses its row lists. -/
def Obligations.OnlyListedCellsChange : Prop :=
  ∀ (i : Instr) (s t : State), exec i s = .next t → MemKept (storedAddrs i s) s t

/-- R57, R83: a step depends on no cell but those of its own instruction and, for LD A,(DE), the cell at DE. Two states
that differ only in other cells step alike: the same registers, the same failure, the same bytes stored. The cells of the
instruction are counted modulo 2^16 (decision D3, log entry 3), and a failure leaves what R175 says (decision D11, log
entry 11). -/
def Obligations.StepDependsOnlyOnTheCellsItReads : Prop :=
  ∀ (s : State) (m : Memory), (∀ a ∈ readAddrs s, readByte { s with mem := m } a = readByte s a) →
    (∀ t, step s = .next t → ∃ t', step { s with mem := m } = .next t' ∧ t' = { t with mem := t'.mem } ∧
      ∀ a, (readByte t a ≠ readByte s a → readByte t' a = readByte t a) ∧
        (readByte t' a ≠ readByte { s with mem := m } a → readByte t' a = readByte t a)) ∧
    (∀ info t, step s = .fault (.decodeError info t) →
      step { s with mem := m } = .fault (.decodeError info { t with mem := m }))

/-- R34, R208: `cycles` influences nothing: a step from a state with another value of it has the same outcome, where a
decode failure keeps the other value (decision D11, log entry 11). -/
def Obligations.CyclesInfluencesNothing : Prop :=
  ∀ (s : State) (n : Nat),
    (∀ t, step s = .next t → step { s with cycles := n } = .next t) ∧
    (∀ info t, step s = .fault (.decodeError info t) →
      step { s with cycles := n } = .fault (.decodeError info { t with cycles := n }))

/-- R209: what a step leaves in `cycles`: the instruction's number, or on a decode failure what was there (decisions D11
and D23, log entries 11 and 17). JR NZ,r8 has 12 where Z is clear and 8 where it is set (R161; decision D2, log entry
13). -/
def Obligations.CyclesFollowTheColumn : Prop :=
  (∀ (i : Instr) (s t : State), exec i s = .next t → t.cycles = cyclesOf i s) ∧
  (∀ (s t : State) (info : DecodeError), step s = .fault (.decodeError info t) → t.cycles = s.cycles) ∧
  (∀ s t : State, step s = .next t → t.cycles ∈ [4, 8, 12, 16, 24])

/-- R27: PC after a step is the address after the instruction (modulo 2^16: decision D3, log entry 3), but for a taken JR
NZ,r8 (decisions D2, D7, log entries 13, 7) and CALL nn. -/
def Obligations.PCAdvancesByTheLength : Prop :=
  ∀ (s t : State) (i : Instr), decode (byteAt s 0) (byteAt s 1) (byteAt s 2) = .ok i → step s = .next t →
    t.pc =
      match i with
      | .jrNZ r8 => if getFlag s .z then s.pc + 2 else s.pc + 2 + sext16 r8
      | .callNN nn => nn
      | other => s.pc + BitVec.ofNat 16 other.length

/-- R68, R207: a byte stored at the address of the next instruction is the byte the next step fetches, for LD (HL),A and
for LD (HL-),A (PC modulo 2^16: decision D3, log entry 3). -/
def Obligations.StoreIsSeenByTheNextFetch : Prop :=
  ∀ s : State, (byteAt s 0 = 0x77 ∨ byteAt s 0 = 0x32) → getPair s .hl = s.pc + 1 →
    ∃ t, step s = .next t ∧ t.pc = s.pc + 1 ∧ (fetch t).1 = s.a

/-! ## The parties outside the core -/

/-- R177, R204: under `ON_DECODE_ERROR = continue` nothing stops the machine: n steps always lead to a state; under `halt`
the run ends only at a decode failure (decision D14, log entry 2). -/
def Obligations.TheMachineNeverStopsByItself : Prop :=
  (∀ (n : Nat) (s : State), ∃ t, drive .resume n s = .next t) ∧
  (∀ (n : Nat) (s : State), (∃ t, drive .halt n s = .next t) ∨
    ∃ k u info t, k < n ∧ drive .halt k s = .next u ∧ step u = .fault (.decodeError info t) ∧
      drive .halt n s = .fault (.decodeError info t))

/-- R204 (iii), decision D15, log entry 2: a run with a stop address is the run of some k of its at most n steps; before
each of the k steps PC was not the stop address, and where k is less than n the run ended with PC there. That the test
also comes before the first step is the model's choice (DESIGN CHOICE, log entry 27). -/
def Obligations.RunUntilAddressIsAPrefix : Prop :=
  ∀ (policy : Config.OnDecodeError) (stop : Word) (n : Nat) (s : State),
    ∃ k ≤ n, driveUntil policy stop n s = drive policy k s ∧
      (∀ j < k, ∀ u, drive policy j s = .next u → u.pc ≠ stop) ∧
      (k < n → ∀ t, drive policy k s = .next t → t.pc = stop)

/-- R186: the snapshot's four flags are bits 7, 6, 5, 4 of the F in it, and it returns every register. -/
def Obligations.SnapshotShowsRegistersAndFlags : Prop :=
  ∀ s : State, snapshot s = ⟨s.a, s.b, s.c, s.d, s.e, s.f, s.h, s.l, s.pc, s.sp,
    s.f.getLsbD 7, s.f.getLsbD 6, s.f.getLsbD 5, s.f.getLsbD 4⟩

/-- Log entries 21 and 22 (the model's own interface): the instruction of a table word, stored at PC of any state (modulo
2^16: decision D3, log entry 3), is the one the next step runs. -/
def Obligations.PlacedTableWordIsTheOneThatRuns : Prop :=
  ∀ (s : State) (nbits w : Nat) (i : Instr), decodeTableWord nbits w = some i →
    step (s.withFetchWord nbits w) = exec i { s.withFetchWord nbits w with pc := s.pc + BitVec.ofNat 16 i.length }
end

