-- ==== Sys2Proof/Laws/State.lean ====
section
/-! SUPPORT. One lemma per field per update of State, so that no later proof unfolds a record update. -/

namespace Sys2Proof.Machine

/-! ### Reading a register by name -/

@[simp] theorem getReg_a (s : State) : getReg s .a = s.a := rfl
@[simp] theorem getReg_b (s : State) : getReg s .b = s.b := rfl
@[simp] theorem getReg_c (s : State) : getReg s .c = s.c := rfl
@[simp] theorem getReg_d (s : State) : getReg s .d = s.d := rfl
@[simp] theorem getReg_e (s : State) : getReg s .e = s.e := rfl
@[simp] theorem getReg_h (s : State) : getReg s .h = s.h := rfl
@[simp] theorem getReg_l (s : State) : getReg s .l = s.l := rfl

/-! ### `setReg` -/

@[simp] theorem setReg_a_a (s : State) (v : Byte) : (setReg s .a v).a = v := rfl
@[simp] theorem setReg_a_b (s : State) (v : Byte) : (setReg s .a v).b = s.b := rfl
@[simp] theorem setReg_a_c (s : State) (v : Byte) : (setReg s .a v).c = s.c := rfl
@[simp] theorem setReg_a_d (s : State) (v : Byte) : (setReg s .a v).d = s.d := rfl
@[simp] theorem setReg_a_e (s : State) (v : Byte) : (setReg s .a v).e = s.e := rfl
@[simp] theorem setReg_a_h (s : State) (v : Byte) : (setReg s .a v).h = s.h := rfl
@[simp] theorem setReg_a_l (s : State) (v : Byte) : (setReg s .a v).l = s.l := rfl
@[simp] theorem setReg_b_a (s : State) (v : Byte) : (setReg s .b v).a = s.a := rfl
@[simp] theorem setReg_b_b (s : State) (v : Byte) : (setReg s .b v).b = v := rfl
@[simp] theorem setReg_b_c (s : State) (v : Byte) : (setReg s .b v).c = s.c := rfl
@[simp] theorem setReg_b_d (s : State) (v : Byte) : (setReg s .b v).d = s.d := rfl
@[simp] theorem setReg_b_e (s : State) (v : Byte) : (setReg s .b v).e = s.e := rfl
@[simp] theorem setReg_b_h (s : State) (v : Byte) : (setReg s .b v).h = s.h := rfl
@[simp] theorem setReg_b_l (s : State) (v : Byte) : (setReg s .b v).l = s.l := rfl
@[simp] theorem setReg_c_a (s : State) (v : Byte) : (setReg s .c v).a = s.a := rfl
@[simp] theorem setReg_c_b (s : State) (v : Byte) : (setReg s .c v).b = s.b := rfl
@[simp] theorem setReg_c_c (s : State) (v : Byte) : (setReg s .c v).c = v := rfl
@[simp] theorem setReg_c_d (s : State) (v : Byte) : (setReg s .c v).d = s.d := rfl
@[simp] theorem setReg_c_e (s : State) (v : Byte) : (setReg s .c v).e = s.e := rfl
@[simp] theorem setReg_c_h (s : State) (v : Byte) : (setReg s .c v).h = s.h := rfl
@[simp] theorem setReg_c_l (s : State) (v : Byte) : (setReg s .c v).l = s.l := rfl
@[simp] theorem setReg_d_a (s : State) (v : Byte) : (setReg s .d v).a = s.a := rfl
@[simp] theorem setReg_d_b (s : State) (v : Byte) : (setReg s .d v).b = s.b := rfl
@[simp] theorem setReg_d_c (s : State) (v : Byte) : (setReg s .d v).c = s.c := rfl
@[simp] theorem setReg_d_d (s : State) (v : Byte) : (setReg s .d v).d = v := rfl
@[simp] theorem setReg_d_e (s : State) (v : Byte) : (setReg s .d v).e = s.e := rfl
@[simp] theorem setReg_d_h (s : State) (v : Byte) : (setReg s .d v).h = s.h := rfl
@[simp] theorem setReg_d_l (s : State) (v : Byte) : (setReg s .d v).l = s.l := rfl
@[simp] theorem setReg_e_a (s : State) (v : Byte) : (setReg s .e v).a = s.a := rfl
@[simp] theorem setReg_e_b (s : State) (v : Byte) : (setReg s .e v).b = s.b := rfl
@[simp] theorem setReg_e_c (s : State) (v : Byte) : (setReg s .e v).c = s.c := rfl
@[simp] theorem setReg_e_d (s : State) (v : Byte) : (setReg s .e v).d = s.d := rfl
@[simp] theorem setReg_e_e (s : State) (v : Byte) : (setReg s .e v).e = v := rfl
@[simp] theorem setReg_e_h (s : State) (v : Byte) : (setReg s .e v).h = s.h := rfl
@[simp] theorem setReg_e_l (s : State) (v : Byte) : (setReg s .e v).l = s.l := rfl
@[simp] theorem setReg_h_a (s : State) (v : Byte) : (setReg s .h v).a = s.a := rfl
@[simp] theorem setReg_h_b (s : State) (v : Byte) : (setReg s .h v).b = s.b := rfl
@[simp] theorem setReg_h_c (s : State) (v : Byte) : (setReg s .h v).c = s.c := rfl
@[simp] theorem setReg_h_d (s : State) (v : Byte) : (setReg s .h v).d = s.d := rfl
@[simp] theorem setReg_h_e (s : State) (v : Byte) : (setReg s .h v).e = s.e := rfl
@[simp] theorem setReg_h_h (s : State) (v : Byte) : (setReg s .h v).h = v := rfl
@[simp] theorem setReg_h_l (s : State) (v : Byte) : (setReg s .h v).l = s.l := rfl
@[simp] theorem setReg_l_a (s : State) (v : Byte) : (setReg s .l v).a = s.a := rfl
@[simp] theorem setReg_l_b (s : State) (v : Byte) : (setReg s .l v).b = s.b := rfl
@[simp] theorem setReg_l_c (s : State) (v : Byte) : (setReg s .l v).c = s.c := rfl
@[simp] theorem setReg_l_d (s : State) (v : Byte) : (setReg s .l v).d = s.d := rfl
@[simp] theorem setReg_l_e (s : State) (v : Byte) : (setReg s .l v).e = s.e := rfl
@[simp] theorem setReg_l_h (s : State) (v : Byte) : (setReg s .l v).h = s.h := rfl
@[simp] theorem setReg_l_l (s : State) (v : Byte) : (setReg s .l v).l = v := rfl
@[simp] theorem setReg_f (s : State) (r : Reg8) (v : Byte) : (setReg s r v).f = s.f := by cases r <;> rfl
@[simp] theorem setReg_pc (s : State) (r : Reg8) (v : Byte) : (setReg s r v).pc = s.pc := by cases r <;> rfl
@[simp] theorem setReg_sp (s : State) (r : Reg8) (v : Byte) : (setReg s r v).sp = s.sp := by cases r <;> rfl
@[simp] theorem setReg_cycles (s : State) (r : Reg8) (v : Byte) : (setReg s r v).cycles = s.cycles := by cases r <;> rfl
@[simp] theorem setReg_mem (s : State) (r : Reg8) (v : Byte) : (setReg s r v).mem = s.mem := by cases r <;> rfl
@[simp] theorem getReg_setReg_same (s : State) (r : Reg8) (v : Byte) : getReg (setReg s r v) r = v := by cases r <;> rfl
theorem getReg_setReg_ne (s : State) (r q : Reg8) (v : Byte) (h : q ≠ r) : getReg (setReg s r v) q = getReg s q := by
  cases r <;> cases q <;> first | rfl | exact absurd rfl h

/-! ### `setPC` -/

@[simp] theorem setPC_a (s : State) (w : Word) : (setPC s w).a = s.a := rfl
@[simp] theorem setPC_b (s : State) (w : Word) : (setPC s w).b = s.b := rfl
@[simp] theorem setPC_c (s : State) (w : Word) : (setPC s w).c = s.c := rfl
@[simp] theorem setPC_d (s : State) (w : Word) : (setPC s w).d = s.d := rfl
@[simp] theorem setPC_e (s : State) (w : Word) : (setPC s w).e = s.e := rfl
@[simp] theorem setPC_h (s : State) (w : Word) : (setPC s w).h = s.h := rfl
@[simp] theorem setPC_l (s : State) (w : Word) : (setPC s w).l = s.l := rfl
@[simp] theorem setPC_f (s : State) (w : Word) : (setPC s w).f = s.f := rfl
@[simp] theorem setPC_pc (s : State) (w : Word) : (setPC s w).pc = w := rfl
@[simp] theorem setPC_sp (s : State) (w : Word) : (setPC s w).sp = s.sp := rfl
@[simp] theorem setPC_cycles (s : State) (w : Word) : (setPC s w).cycles = s.cycles := rfl
@[simp] theorem setPC_mem (s : State) (w : Word) : (setPC s w).mem = s.mem := rfl
@[simp] theorem getReg_setPC (s : State) (w : Word) (r : Reg8) : getReg (setPC s w) r = getReg s r := by cases r <;> rfl

/-! ### `setSP` -/

@[simp] theorem setSP_a (s : State) (w : Word) : (setSP s w).a = s.a := rfl
@[simp] theorem setSP_b (s : State) (w : Word) : (setSP s w).b = s.b := rfl
@[simp] theorem setSP_c (s : State) (w : Word) : (setSP s w).c = s.c := rfl
@[simp] theorem setSP_d (s : State) (w : Word) : (setSP s w).d = s.d := rfl
@[simp] theorem setSP_e (s : State) (w : Word) : (setSP s w).e = s.e := rfl
@[simp] theorem setSP_h (s : State) (w : Word) : (setSP s w).h = s.h := rfl
@[simp] theorem setSP_l (s : State) (w : Word) : (setSP s w).l = s.l := rfl
@[simp] theorem setSP_f (s : State) (w : Word) : (setSP s w).f = s.f := rfl
@[simp] theorem setSP_pc (s : State) (w : Word) : (setSP s w).pc = s.pc := rfl
@[simp] theorem setSP_sp (s : State) (w : Word) : (setSP s w).sp = w := rfl
@[simp] theorem setSP_cycles (s : State) (w : Word) : (setSP s w).cycles = s.cycles := rfl
@[simp] theorem setSP_mem (s : State) (w : Word) : (setSP s w).mem = s.mem := rfl
@[simp] theorem getReg_setSP (s : State) (w : Word) (r : Reg8) : getReg (setSP s w) r = getReg s r := by cases r <;> rfl

/-! ### `writeByte` -/

@[simp] theorem writeByte_a (s : State) (addr : Word) (v : Byte) : (writeByte s addr v).a = s.a := rfl
@[simp] theorem writeByte_b (s : State) (addr : Word) (v : Byte) : (writeByte s addr v).b = s.b := rfl
@[simp] theorem writeByte_c (s : State) (addr : Word) (v : Byte) : (writeByte s addr v).c = s.c := rfl
@[simp] theorem writeByte_d (s : State) (addr : Word) (v : Byte) : (writeByte s addr v).d = s.d := rfl
@[simp] theorem writeByte_e (s : State) (addr : Word) (v : Byte) : (writeByte s addr v).e = s.e := rfl
@[simp] theorem writeByte_h (s : State) (addr : Word) (v : Byte) : (writeByte s addr v).h = s.h := rfl
@[simp] theorem writeByte_l (s : State) (addr : Word) (v : Byte) : (writeByte s addr v).l = s.l := rfl
@[simp] theorem writeByte_f (s : State) (addr : Word) (v : Byte) : (writeByte s addr v).f = s.f := rfl
@[simp] theorem writeByte_pc (s : State) (addr : Word) (v : Byte) : (writeByte s addr v).pc = s.pc := rfl
@[simp] theorem writeByte_sp (s : State) (addr : Word) (v : Byte) : (writeByte s addr v).sp = s.sp := rfl
@[simp] theorem writeByte_cycles (s : State) (addr : Word) (v : Byte) : (writeByte s addr v).cycles = s.cycles := rfl
@[simp] theorem writeByte_mem (s : State) (addr : Word) (v : Byte) : (writeByte s addr v).mem = Memory.put s.mem addr.toNat v := rfl
@[simp] theorem getReg_writeByte (s : State) (addr : Word) (v : Byte) (r : Reg8) : getReg (writeByte s addr v) r = getReg s r := by cases r <;> rfl

/-! ### `setFlag` -/

@[simp] theorem setFlag_a (s : State) (x : Flag) (v : Bool) : (setFlag s x v).a = s.a := rfl
@[simp] theorem setFlag_b (s : State) (x : Flag) (v : Bool) : (setFlag s x v).b = s.b := rfl
@[simp] theorem setFlag_c (s : State) (x : Flag) (v : Bool) : (setFlag s x v).c = s.c := rfl
@[simp] theorem setFlag_d (s : State) (x : Flag) (v : Bool) : (setFlag s x v).d = s.d := rfl
@[simp] theorem setFlag_e (s : State) (x : Flag) (v : Bool) : (setFlag s x v).e = s.e := rfl
@[simp] theorem setFlag_h (s : State) (x : Flag) (v : Bool) : (setFlag s x v).h = s.h := rfl
@[simp] theorem setFlag_l (s : State) (x : Flag) (v : Bool) : (setFlag s x v).l = s.l := rfl
@[simp] theorem setFlag_pc (s : State) (x : Flag) (v : Bool) : (setFlag s x v).pc = s.pc := rfl
@[simp] theorem setFlag_sp (s : State) (x : Flag) (v : Bool) : (setFlag s x v).sp = s.sp := rfl
@[simp] theorem setFlag_cycles (s : State) (x : Flag) (v : Bool) : (setFlag s x v).cycles = s.cycles := rfl
@[simp] theorem setFlag_mem (s : State) (x : Flag) (v : Bool) : (setFlag s x v).mem = s.mem := rfl
@[simp] theorem getReg_setFlag (s : State) (x : Flag) (v : Bool) (r : Reg8) : getReg (setFlag s x v) r = getReg s r := by cases r <;> rfl

/-! ### `setCycles` -/

@[simp] theorem setCycles_a (s : State) (n : Nat) : (setCycles s n).a = s.a := rfl
@[simp] theorem setCycles_b (s : State) (n : Nat) : (setCycles s n).b = s.b := rfl
@[simp] theorem setCycles_c (s : State) (n : Nat) : (setCycles s n).c = s.c := rfl
@[simp] theorem setCycles_d (s : State) (n : Nat) : (setCycles s n).d = s.d := rfl
@[simp] theorem setCycles_e (s : State) (n : Nat) : (setCycles s n).e = s.e := rfl
@[simp] theorem setCycles_h (s : State) (n : Nat) : (setCycles s n).h = s.h := rfl
@[simp] theorem setCycles_l (s : State) (n : Nat) : (setCycles s n).l = s.l := rfl
@[simp] theorem setCycles_f (s : State) (n : Nat) : (setCycles s n).f = s.f := rfl
@[simp] theorem setCycles_pc (s : State) (n : Nat) : (setCycles s n).pc = s.pc := rfl
@[simp] theorem setCycles_sp (s : State) (n : Nat) : (setCycles s n).sp = s.sp := rfl
@[simp] theorem setCycles_mem (s : State) (n : Nat) : (setCycles s n).mem = s.mem := rfl
@[simp] theorem setCycles_cycles (s : State) (n : Nat) : (setCycles s n).cycles = n := rfl
@[simp] theorem getReg_setCycles (s : State) (n : Nat) (r : Reg8) : getReg (setCycles s n) r = getReg s r := by cases r <;> rfl

/-! ### `setPair` -/

@[simp] theorem setPair_bc_a (s : State) (w : Word) : (setPair s .bc w).a = s.a := rfl
@[simp] theorem setPair_bc_b (s : State) (w : Word) : (setPair s .bc w).b = hi8 w := rfl
@[simp] theorem setPair_bc_c (s : State) (w : Word) : (setPair s .bc w).c = lo8 w := rfl
@[simp] theorem setPair_bc_d (s : State) (w : Word) : (setPair s .bc w).d = s.d := rfl
@[simp] theorem setPair_bc_e (s : State) (w : Word) : (setPair s .bc w).e = s.e := rfl
@[simp] theorem setPair_bc_h (s : State) (w : Word) : (setPair s .bc w).h = s.h := rfl
@[simp] theorem setPair_bc_l (s : State) (w : Word) : (setPair s .bc w).l = s.l := rfl
@[simp] theorem setPair_de_a (s : State) (w : Word) : (setPair s .de w).a = s.a := rfl
@[simp] theorem setPair_de_b (s : State) (w : Word) : (setPair s .de w).b = s.b := rfl
@[simp] theorem setPair_de_c (s : State) (w : Word) : (setPair s .de w).c = s.c := rfl
@[simp] theorem setPair_de_d (s : State) (w : Word) : (setPair s .de w).d = hi8 w := rfl
@[simp] theorem setPair_de_e (s : State) (w : Word) : (setPair s .de w).e = lo8 w := rfl
@[simp] theorem setPair_de_h (s : State) (w : Word) : (setPair s .de w).h = s.h := rfl
@[simp] theorem setPair_de_l (s : State) (w : Word) : (setPair s .de w).l = s.l := rfl
@[simp] theorem setPair_hl_a (s : State) (w : Word) : (setPair s .hl w).a = s.a := rfl
@[simp] theorem setPair_hl_b (s : State) (w : Word) : (setPair s .hl w).b = s.b := rfl
@[simp] theorem setPair_hl_c (s : State) (w : Word) : (setPair s .hl w).c = s.c := rfl
@[simp] theorem setPair_hl_d (s : State) (w : Word) : (setPair s .hl w).d = s.d := rfl
@[simp] theorem setPair_hl_e (s : State) (w : Word) : (setPair s .hl w).e = s.e := rfl
@[simp] theorem setPair_hl_h (s : State) (w : Word) : (setPair s .hl w).h = hi8 w := rfl
@[simp] theorem setPair_hl_l (s : State) (w : Word) : (setPair s .hl w).l = lo8 w := rfl
@[simp] theorem setPair_f (s : State) (p : Pair) (w : Word) : (setPair s p w).f = s.f := by simp [setPair]
@[simp] theorem setPair_pc (s : State) (p : Pair) (w : Word) : (setPair s p w).pc = s.pc := by simp [setPair]
@[simp] theorem setPair_sp (s : State) (p : Pair) (w : Word) : (setPair s p w).sp = s.sp := by simp [setPair]
@[simp] theorem setPair_cycles (s : State) (p : Pair) (w : Word) : (setPair s p w).cycles = s.cycles := by simp [setPair]
@[simp] theorem setPair_mem (s : State) (p : Pair) (w : Word) : (setPair s p w).mem = s.mem := by simp [setPair]

/-! ### `setZNH`, `setZNHC`: every field but F -/

@[simp] theorem setZNH_a (s : State) (z n h : Bool) : (setZNH s z n h).a = s.a := rfl
@[simp] theorem setZNH_b (s : State) (z n h : Bool) : (setZNH s z n h).b = s.b := rfl
@[simp] theorem setZNH_c (s : State) (z n h : Bool) : (setZNH s z n h).c = s.c := rfl
@[simp] theorem setZNH_d (s : State) (z n h : Bool) : (setZNH s z n h).d = s.d := rfl
@[simp] theorem setZNH_e (s : State) (z n h : Bool) : (setZNH s z n h).e = s.e := rfl
@[simp] theorem setZNH_h (s : State) (z n h : Bool) : (setZNH s z n h).h = s.h := rfl
@[simp] theorem setZNH_l (s : State) (z n h : Bool) : (setZNH s z n h).l = s.l := rfl
@[simp] theorem setZNH_pc (s : State) (z n h : Bool) : (setZNH s z n h).pc = s.pc := rfl
@[simp] theorem setZNH_sp (s : State) (z n h : Bool) : (setZNH s z n h).sp = s.sp := rfl
@[simp] theorem setZNH_cycles (s : State) (z n h : Bool) : (setZNH s z n h).cycles = s.cycles := rfl
@[simp] theorem setZNH_mem (s : State) (z n h : Bool) : (setZNH s z n h).mem = s.mem := rfl
@[simp] theorem setZNHC_a (s : State) (z n h c : Bool) : (setZNHC s z n h c).a = s.a := rfl
@[simp] theorem setZNHC_b (s : State) (z n h c : Bool) : (setZNHC s z n h c).b = s.b := rfl
@[simp] theorem setZNHC_c (s : State) (z n h c : Bool) : (setZNHC s z n h c).c = s.c := rfl
@[simp] theorem setZNHC_d (s : State) (z n h c : Bool) : (setZNHC s z n h c).d = s.d := rfl
@[simp] theorem setZNHC_e (s : State) (z n h c : Bool) : (setZNHC s z n h c).e = s.e := rfl
@[simp] theorem setZNHC_h (s : State) (z n h c : Bool) : (setZNHC s z n h c).h = s.h := rfl
@[simp] theorem setZNHC_l (s : State) (z n h c : Bool) : (setZNHC s z n h c).l = s.l := rfl
@[simp] theorem setZNHC_pc (s : State) (z n h c : Bool) : (setZNHC s z n h c).pc = s.pc := rfl
@[simp] theorem setZNHC_sp (s : State) (z n h c : Bool) : (setZNHC s z n h c).sp = s.sp := rfl
@[simp] theorem setZNHC_cycles (s : State) (z n h c : Bool) : (setZNHC s z n h c).cycles = s.cycles := rfl
@[simp] theorem setZNHC_mem (s : State) (z n h c : Bool) : (setZNHC s z n h c).mem = s.mem := rfl

/-! ### `pushByte`, `pushWord`: every field but SP and memory -/

@[simp] theorem pushByte_a (s : State) (v : Byte) : (pushByte s v).a = s.a := rfl
@[simp] theorem pushByte_b (s : State) (v : Byte) : (pushByte s v).b = s.b := rfl
@[simp] theorem pushByte_c (s : State) (v : Byte) : (pushByte s v).c = s.c := rfl
@[simp] theorem pushByte_d (s : State) (v : Byte) : (pushByte s v).d = s.d := rfl
@[simp] theorem pushByte_e (s : State) (v : Byte) : (pushByte s v).e = s.e := rfl
@[simp] theorem pushByte_h (s : State) (v : Byte) : (pushByte s v).h = s.h := rfl
@[simp] theorem pushByte_l (s : State) (v : Byte) : (pushByte s v).l = s.l := rfl
@[simp] theorem pushByte_f (s : State) (v : Byte) : (pushByte s v).f = s.f := rfl
@[simp] theorem pushByte_pc (s : State) (v : Byte) : (pushByte s v).pc = s.pc := rfl
@[simp] theorem pushByte_cycles (s : State) (v : Byte) : (pushByte s v).cycles = s.cycles := rfl
@[simp] theorem pushWord_a (s : State) (w : Word) : (pushWord s w).a = s.a := rfl
@[simp] theorem pushWord_b (s : State) (w : Word) : (pushWord s w).b = s.b := rfl
@[simp] theorem pushWord_c (s : State) (w : Word) : (pushWord s w).c = s.c := rfl
@[simp] theorem pushWord_d (s : State) (w : Word) : (pushWord s w).d = s.d := rfl
@[simp] theorem pushWord_e (s : State) (w : Word) : (pushWord s w).e = s.e := rfl
@[simp] theorem pushWord_h (s : State) (w : Word) : (pushWord s w).h = s.h := rfl
@[simp] theorem pushWord_l (s : State) (w : Word) : (pushWord s w).l = s.l := rfl
@[simp] theorem pushWord_f (s : State) (w : Word) : (pushWord s w).f = s.f := rfl
@[simp] theorem pushWord_pc (s : State) (w : Word) : (pushWord s w).pc = s.pc := rfl
@[simp] theorem pushWord_cycles (s : State) (w : Word) : (pushWord s w).cycles = s.cycles := rfl
@[simp] theorem pushByte_sp (s : State) (v : Byte) : (pushByte s v).sp = s.sp - 1 := rfl
theorem pushWord_sp (s : State) (w : Word) : (pushWord s w).sp = s.sp - 2 := by
  show s.sp - 1 - 1 = s.sp - 2
  bv_omega

/-! ### The 8-bit registers, read by number -/

@[simp] theorem getReg_setZNH (s : State) (z n h : Bool) (r : Reg8) : getReg (setZNH s z n h) r = getReg s r := by
  cases r <;> rfl
@[simp] theorem getReg_setZNHC (s : State) (z n h c : Bool) (r : Reg8) : getReg (setZNHC s z n h c) r = getReg s r := by
  cases r <;> rfl
@[simp] theorem getReg_pushWord (s : State) (w : Word) (r : Reg8) : getReg (pushWord s w) r = getReg s r := by
  cases r <;> rfl

/-! ### The flags under an update that keeps F -/

@[simp] theorem getFlag_setReg (s : State) (r : Reg8) (v : Byte) (x : Flag) : getFlag (setReg s r v) x = getFlag s x := by
  simp only [getFlag, setReg_f]
@[simp] theorem getFlag_setPair (s : State) (p : Pair) (w : Word) (x : Flag) : getFlag (setPair s p w) x = getFlag s x := by
  simp only [getFlag, setPair_f]
@[simp] theorem getFlag_setPC (s : State) (w : Word) (x : Flag) : getFlag (setPC s w) x = getFlag s x := rfl
@[simp] theorem getFlag_setSP (s : State) (w : Word) (x : Flag) : getFlag (setSP s w) x = getFlag s x := rfl
@[simp] theorem getFlag_setCycles (s : State) (n : Nat) (x : Flag) : getFlag (setCycles s n) x = getFlag s x := rfl
@[simp] theorem getFlag_writeByte (s : State) (a : Word) (v : Byte) (x : Flag) :
    getFlag (writeByte s a v) x = getFlag s x := rfl
@[simp] theorem getFlag_pushWord (s : State) (w : Word) (x : Flag) : getFlag (pushWord s w) x = getFlag s x := rfl

/-! ### Two states with the same memory read alike -/

theorem readByte_congr (s t : State) (h : t.mem = s.mem) (a : Word) : readByte t a = readByte s a := by
  simp only [readByte, h]

@[simp] theorem readByte_setPC (s : State) (w a : Word) : readByte (setPC s w) a = readByte s a := rfl
@[simp] theorem readByte_setCycles (s : State) (n : Nat) (a : Word) : readByte (setCycles s n) a = readByte s a := rfl
@[simp] theorem readByte_setReg (s : State) (r : Reg8) (v : Byte) (a : Word) :
    readByte (setReg s r v) a = readByte s a := readByte_congr _ _ (setReg_mem s r v) a
@[simp] theorem readByte_setPair (s : State) (p : Pair) (w a : Word) :
    readByte (setPair s p w) a = readByte s a := readByte_congr _ _ (setPair_mem s p w) a
@[simp] theorem readByte_setZNH (s : State) (z n h : Bool) (a : Word) :
    readByte (setZNH s z n h) a = readByte s a := rfl
@[simp] theorem readByte_setZNHC (s : State) (z n h c : Bool) (a : Word) :
    readByte (setZNHC s z n h c) a = readByte s a := rfl
@[simp] theorem readByte_setSP (s : State) (w a : Word) : readByte (setSP s w) a = readByte s a := rfl

end Sys2Proof.Machine
end

