-- ==== Sys2Proof/Laws/Bits.lean ====
section
/-! SUPPORT. Bytes and words (00_scope.md R7, 10_state.md R22) and the flag accessor (R31). -/

namespace Sys2Proof

@[simp] theorem hi8_joinBytes (hi lo : Byte) : hi8 (joinBytes hi lo) = hi := by
  ext k hk
  simp only [hi8, joinBytes, BitVec.getElem_extractLsb', BitVec.getLsbD_append]
  rw [if_neg (by omega)]
  simp [hk]

@[simp] theorem lo8_joinBytes (hi lo : Byte) : lo8 (joinBytes hi lo) = lo := by
  ext k hk
  simp only [lo8, joinBytes, BitVec.getElem_extractLsb', BitVec.getLsbD_append]
  rw [if_pos (by omega)]
  simp [hk]

@[simp] theorem joinBytes_hi8_lo8 (w : Word) : joinBytes (hi8 w) (lo8 w) = w := by
  refine BitVec.eq_of_getLsbD_eq fun k hk => ?_
  simp only [hi8, lo8, joinBytes, BitVec.getLsbD_append, BitVec.getLsbD_extractLsb']
  split
  · simp [*]
  · have : k - 8 < 8 := by omega
    have e : 8 + (k - 8) = k := by omega
    simp [this, e]

theorem joinBytes_toNat (hi lo : Byte) : (joinBytes hi lo).toNat = hi.toNat * 256 + lo.toNat := by
  simp only [joinBytes, BitVec.toNat_append]
  rw [← Nat.shiftLeft_add_eq_or_of_lt lo.isLt, Nat.shiftLeft_eq]

namespace Machine

theorem flagBit_lt (x : Flag) : flagBit x < 8 := by cases x <;> decide

theorem flagBit_injective {x y : Flag} (h : flagBit x = flagBit y) : x = y := by
  cases x <;> cases y <;> first | rfl | simp [flagBit] at h

/-- The setter writes its flag's bit of F and no other (R31). -/
theorem setFlag_bit (s : State) (x : Flag) (v : Bool) (k : Nat) :
    (setFlag s x v).f.getLsbD k = if k = flagBit x then v else s.f.getLsbD k := by
  have hx := flagBit_lt x
  by_cases hk : k < 8
  · simp only [setFlag, BitVec.getLsbD_or, BitVec.getLsbD_and, BitVec.getLsbD_not, BitVec.getLsbD_shiftLeft,
      BitVec.getLsbD_setWidth, BitVec.getLsbD_ofBool, BitVec.getLsbD_one]
    by_cases e : k = flagBit x
    · subst e; simp [hk]
    · have : k < flagBit x ∨ ¬ k < flagBit x ∧ k - flagBit x ≠ 0 := by omega
      rcases this with h | ⟨h, h'⟩
      · simp [hk, e, h]
      · simp [hk, e, h, h']
  · rw [BitVec.getLsbD_of_ge _ _ (by omega), BitVec.getLsbD_of_ge _ _ (by omega), if_neg (by omega)]

@[simp] theorem getFlag_setFlag_same (s : State) (x : Flag) (v : Bool) : getFlag (setFlag s x v) x = v := by
  simp [getFlag, setFlag_bit]

theorem getFlag_setFlag_ne (s : State) (x y : Flag) (v : Bool) (h : y ≠ x) :
    getFlag (setFlag s x v) y = getFlag s y := by
  simp only [getFlag, setFlag_bit]
  rw [if_neg (fun e => h (flagBit_injective e))]

/-- What `setZNH` makes of each bit of F. -/
theorem setZNH_bit (s : State) (z n h : Bool) (k : Nat) :
    (setZNH s z n h).f.getLsbD k = if k = 5 then h else if k = 6 then n else if k = 7 then z else s.f.getLsbD k := by
  simp only [setZNH, setFlag_bit]; rfl

/-- What `setZNHC` makes of each bit of F. -/
theorem setZNHC_bit (s : State) (z n h c : Bool) (k : Nat) :
    (setZNHC s z n h c).f.getLsbD k =
      if k = 4 then c else if k = 5 then h else if k = 6 then n else if k = 7 then z else s.f.getLsbD k := by
  simp only [setZNHC, setZNH_bit, setFlag_bit]; rfl

/-- The flags after `setZNH`. -/
@[simp] theorem getFlag_setZNH (s : State) (z n h : Bool) (x : Flag) :
    getFlag (setZNH s z n h) x =
      match x with
      | .z => z
      | .n => n
      | .h => h
      | .c => getFlag s .c := by
  simp only [getFlag, setZNH_bit]
  cases x <;> rfl

/-- The flags after `setZNHC`. -/
@[simp] theorem getFlag_setZNHC (s : State) (z n h c : Bool) (x : Flag) :
    getFlag (setZNHC s z n h c) x =
      match x with
      | .z => z
      | .n => n
      | .h => h
      | .c => c := by
  simp only [getFlag, setZNHC_bit]
  cases x <;> rfl

end Machine

end Sys2Proof
end

