-- ==== Sys2Proof/Laws/Alu.lean ====
section
/-! SUPPORT. What the shared computations yield, as numbers: `inc8` (42_alu.md R140), `rl8` (43_rotates_bits.md R150), the
high-page address (20_memory.md R62) and the JR target (44_control.md R161). -/

namespace Sys2Proof.Machine

/-- The increment wraps (R140). -/
theorem inc8_toNat (x : Byte) : (inc8 x).1.toNat = (x.toNat + 1) % 256 := by
  simp [inc8, BitVec.toNat_add]

/-- `z` is 1 exactly at 0xFF (R140). -/
theorem inc8_zero (x : Byte) : (inc8 x).2.1 = true ↔ x = 0xFF := by
  simp only [inc8, beq_iff_eq]
  constructor <;> intro h
  · bv_omega
  · subst h; rfl

/-- `hcarry` is 1 exactly when the low nibble is 0xF (R140). -/
theorem inc8_half (x : Byte) : (inc8 x).2.2 = true ↔ x.toNat % 16 = 15 := by
  have e : (x &&& 0x0F).toNat = x.toNat % 16 := by
    rw [BitVec.toNat_and]
    exact Nat.and_two_pow_sub_one_eq_mod x.toNat 4
  simp only [inc8, e, decide_eq_true_eq]
  omega

/-- `r = (2*x + cin) mod 256` (R150). -/
theorem rl8_toNat (x : Byte) (cin : Bool) : (rl8 x cin).1.toNat = (2 * x.toNat + cin.toNat) % 256 := by
  have key : (x <<< 1) ||| (BitVec.ofBool cin).setWidth 8 = x + x + (BitVec.ofBool cin).setWidth 8 := by
    revert x cin; decide
  simp only [rl8, key, BitVec.toNat_add, BitVec.toNat_setWidth, BitVec.toNat_ofBool]
  have : cin.toNat < 2 := Bool.toNat_lt cin
  omega

/-- `cout = (x >= 128 ? 1 : 0)` (R150). -/
theorem rl8_cout (x : Byte) (cin : Bool) : (rl8 x cin).2 = true ↔ 128 ≤ x.toNat := by
  revert x cin; decide

/-- The high-page address is `{0xFF, n}` (R62, decision D9). -/
theorem addrHighPage_eq_joinBytes (n : Byte) : addrHighPage n = joinBytes 0xFF n := by
  apply BitVec.eq_of_toNat_eq
  rw [joinBytes_toNat]
  simp only [addrHighPage, highPageBase, zext16, BitVec.toNat_add, BitVec.toNat_setWidth]
  have := n.isLt
  simp
  omega

/-- The JR target as integers: the offset is read as two's complement (R161). -/
theorem jrTarget_toInt (s : State) (r8 : Byte) :
    ((jrTarget s r8).toNat : Int) =
      ((s.pc.toNat : Int) + (if r8.toNat < 128 then (r8.toNat : Int) else (r8.toNat : Int) - 256)) % 65536 := by
  have hr := r8.isLt
  simp only [jrTarget, sext16, BitVec.toNat_add]
  rw [BitVec.toNat_signExtend]
  have hm : r8.msb = decide (128 ≤ r8.toNat) := by simp [BitVec.msb_eq_decide]
  rw [hm, BitVec.toNat_setWidth, Nat.mod_eq_of_lt (by omega : r8.toNat < 2 ^ 16)]
  by_cases h : r8.toNat < 128
  · rw [if_pos h, if_neg (by rw [decide_eq_true_eq]; omega)]
    omega
  · rw [if_neg h, if_pos (by rw [decide_eq_true_eq]; omega)]
    omega

end Sys2Proof.Machine
end

