-- ==== Sys2Proof/Laws/Decode.lean ====
section
/-! SUPPORT. The decoder looks at no byte the format does not have (30_encoding.md R87), and the bytes a step fetches are
those it decodes. -/

namespace Sys2Proof

/-- Two conditionals on one condition agree where their branches do. -/
theorem if_congr_branches {α : Sort _} {c : Prop} [Decidable c] {a b a' b' : α} (ha : c → a = a') (hb : ¬c → b = b') :
    (if c then a else b) = (if c then a' else b') := by
  by_cases hc : c
  · rw [if_pos hc, if_pos hc, ha hc]
  · rw [if_neg hc, if_neg hc, hb hc]

/-- The branch a conditional's value came from. -/
theorem of_if_eq {α : Sort _} {c : Prop} [Decidable c] {a b v : α} (h : (if c then a else b) = v) :
    (c ∧ a = v) ∨ (¬c ∧ b = v) := by
  by_cases hc : c
  · exact .inl ⟨hc, (if_pos hc).symm.trans h⟩
  · exact .inr ⟨hc, (if_neg hc).symm.trans h⟩

/-- An instruction of one byte is told from its opcode alone. -/
theorem decode_of_length_one {op : Byte} (h : instrLength op = 1) (b1 b2 c1 c2 : Byte) :
    decode op b1 b2 = decode op c1 c2 := by
  unfold decode
  repeat'
    first
    | exact rfl
    | refine if_congr_branches (fun e => ?_) (fun _ => ?_)
    | (subst_vars; exact absurd h (by decide))

/-- An instruction of fewer than three bytes does not look at byte 2. -/
theorem decode_of_length_ne_three {op : Byte} (h : instrLength op ≠ 3) (b1 b2 c2 : Byte) :
    decode op b1 b2 = decode op b1 c2 := by
  unfold decode
  repeat'
    first
    | exact rfl
    | refine if_congr_branches (fun e => ?_) (fun _ => ?_)
    | (subst_vars; exact absurd (by decide) h)

/-- Bytes beyond the instruction's length do not change what is decoded. -/
theorem decode_ignores (op b1 b2 : Byte) :
    decode op b1 b2 =
      decode op (if instrLength op = 1 then 0x00 else b1) (if instrLength op = 3 then b2 else 0x00) := by
  by_cases h1 : instrLength op = 1
  · exact decode_of_length_one h1 _ _ _ _
  · by_cases h3 : instrLength op = 3
    · rw [if_neg h1, if_pos h3]
    · rw [if_neg h1]; exact decode_of_length_ne_three h3 _ _ _

/-- A recognised instruction has the length its first byte tells (R87). -/
theorem length_of_decode {op b1 b2 : Byte} {i : Instr} (h : decode op b1 b2 = .ok i) : instrLength op = i.length := by
  unfold decode decodeCB at h
  repeat'
    first
    | (cases h; done)
    | (cases h; subst_vars; rfl)
    | (rcases of_if_eq h with ⟨_, h'⟩ | ⟨_, h'⟩ <;> clear h <;> rename _ => h)

end Sys2Proof
end

