-- ==== Sys2Proof/Laws/Memory.lean ====
section
/-! SUPPORT. The memory list: a read after a write (20_memory.md R50, R51), and the canonical form, which every memory
operation keeps. -/

namespace Sys2Proof.Machine

/-! ### Reading after a change -/

theorem Memory.lookup_insert (m : Memory) (a : Nat) (v : Byte) (b : Nat) :
    Memory.lookup (Memory.insert m a v) b = if b = a then v else Memory.lookup m b := by
  induction m with
  | nil => simp only [Memory.insert, Memory.lookup, eq_comm]
  | cons cell rest ih =>
    obtain ⟨k, w⟩ := cell
    simp only [Memory.insert]
    split
    · simp only [Memory.lookup, eq_comm]
    · split
      · subst_vars
        simp only [Memory.lookup, eq_comm]
        split <;> simp_all
      · simp only [Memory.lookup, ih]
        split <;> split <;> simp_all

theorem Memory.lookup_erase (m : Memory) (a b : Nat) :
    Memory.lookup (Memory.erase m a) b = if b = a then Memory.unlistedByte else Memory.lookup m b := by
  induction m with
  | nil => simp [Memory.erase, Memory.lookup]
  | cons cell rest ih =>
    obtain ⟨k, w⟩ := cell
    simp only [Memory.erase, List.filter_cons] at ih ⊢
    by_cases hk : k = a
    · subst hk
      simp only [bne_self_eq_false, Bool.false_eq_true, if_false, ih, Memory.lookup]
      by_cases hb : b = k
      · simp [hb]
      · simp [hb, Ne.symm hb]
    · simp only [bne_iff_ne, ne_eq, hk, not_false_eq_true, if_true, Memory.lookup, ih]
      by_cases hb : b = a
      · subst hb; simp [hk]
      · simp [hb]

/-- A read after a store: the stored cell holds the byte, every other cell what it held. -/
theorem Memory.lookup_put (m : Memory) (a : Nat) (v : Byte) (b : Nat) :
    Memory.lookup (Memory.put m a v) b = if b = a then v else Memory.lookup m b := by
  unfold Memory.put
  split
  · subst_vars; exact Memory.lookup_erase m a b
  · exact Memory.lookup_insert m a v b

/-- `MemRead` after `MemWrite` (R50, R51). -/
theorem readByte_writeByte (s : State) (a b : Word) (v : Byte) :
    readByte (writeByte s a v) b = if b = a then v else readByte s b := by
  simp only [readByte, writeByte_mem, Memory.lookup_put, ← BitVec.toNat_inj]

@[simp] theorem readByte_writeByte_same (s : State) (a : Word) (v : Byte) : readByte (writeByte s a v) a = v := by
  simp [readByte_writeByte]

theorem readByte_writeByte_ne (s : State) (a b : Word) (v : Byte) (h : b ≠ a) :
    readByte (writeByte s a v) b = readByte s b := by
  simp [readByte_writeByte, h]

/-- What a push leaves in memory (R54, R133). -/
theorem readByte_pushWord (s : State) (w b : Word) :
    readByte (pushWord s w) b =
      if b = s.sp - 2 then lo8 w else if b = s.sp - 1 then hi8 w else readByte s b := by
  have e : s.sp - 1 - 1 = s.sp - 2 := by bv_omega
  simp only [pushWord, pushByte, readByte_writeByte, readByte_setSP, writeByte_sp, setSP_sp, e]

/-! ### The canonical form -/

theorem Memory.wfFrom_mono {m : Memory} {lo lo' : Nat} (h : lo' ≤ lo) (hm : Memory.wfFrom lo m = true) :
    Memory.wfFrom lo' m = true := by
  cases m with
  | nil => rfl
  | cons cell rest =>
    simp only [Memory.wfFrom, Bool.and_eq_true, decide_eq_true_eq] at hm ⊢
    exact ⟨⟨⟨by omega, hm.1.1.2⟩, hm.1.2⟩, hm.2⟩

theorem Memory.wfFrom_insert {m : Memory} {lo a : Nat} {v : Byte} (hlo : lo ≤ a) (ha : a < Config.memSize)
    (hv : v ≠ Memory.unlistedByte) (hm : Memory.wfFrom lo m = true) : Memory.wfFrom lo (Memory.insert m a v) = true := by
  induction m generalizing lo with
  | nil => simp [Memory.insert, Memory.wfFrom, hlo, ha, hv]
  | cons cell rest ih =>
    obtain ⟨k, w⟩ := cell
    simp only [Memory.wfFrom, Bool.and_eq_true, decide_eq_true_eq, bne_iff_ne, ne_eq] at hm
    obtain ⟨⟨⟨h1, h2⟩, h3⟩, h4⟩ := hm
    simp only [Memory.insert]
    split
    · simp [Memory.wfFrom, hlo, ha, hv, h2, h3, h4, Nat.succ_le_of_lt ‹a < k›]
    · split
      · subst_vars; simp [Memory.wfFrom, hlo, ha, hv, h4]
      · simp [Memory.wfFrom, h1, h2, h3, ih (by omega) h4]

theorem Memory.wfFrom_erase {m : Memory} {lo a : Nat} (hm : Memory.wfFrom lo m = true) :
    Memory.wfFrom lo (Memory.erase m a) = true := by
  induction m generalizing lo with
  | nil => rfl
  | cons cell rest ih =>
    obtain ⟨k, w⟩ := cell
    simp only [Memory.wfFrom, Bool.and_eq_true, decide_eq_true_eq, bne_iff_ne, ne_eq] at hm
    obtain ⟨⟨⟨h1, h2⟩, h3⟩, h4⟩ := hm
    simp only [Memory.erase, List.filter_cons] at ih ⊢
    split
    · simp [Memory.wfFrom, h1, h2, h3, ih h4]
    · exact Memory.wfFrom_mono (by omega) (ih h4)

/-- A store keeps the canonical form. -/
theorem Memory.wf_put {m : Memory} {a : Nat} (v : Byte) (ha : a < Config.memSize) (hm : Memory.wf m = true) :
    Memory.wf (Memory.put m a v) = true := by
  unfold Memory.put
  split
  · exact Memory.wfFrom_erase hm
  · exact Memory.wfFrom_insert (Nat.zero_le _) ha ‹_› hm

theorem wf_writeByte (s : State) (a : Word) (v : Byte) (h : Memory.wf s.mem = true) :
    Memory.wf (writeByte s a v).mem = true :=
  Memory.wf_put v a.isLt h

theorem wf_writeBytes (bs : List Byte) (s : State) (a : Word) (h : Memory.wf s.mem = true) :
    Memory.wf (writeBytes s a bs).mem = true := by
  induction bs generalizing s a with
  | nil => exact h
  | cons v rest ih => exact ih _ _ (wf_writeByte s a v h)

theorem wf_pushWord (s : State) (w : Word) (h : Memory.wf s.mem = true) : Memory.wf (pushWord s w).mem = true :=
  wf_writeByte _ _ _ (wf_writeByte _ _ _ h)

/-- Keys below the bound of a canonical tail are unlisted. -/
theorem Memory.lookup_of_lt {m : Memory} {lo a : Nat} (hm : Memory.wfFrom lo m = true) (ha : a < lo) :
    Memory.lookup m a = Memory.unlistedByte := by
  induction m generalizing lo with
  | nil => rfl
  | cons cell rest ih =>
    obtain ⟨k, w⟩ := cell
    simp only [Memory.wfFrom, Bool.and_eq_true, decide_eq_true_eq] at hm
    simp only [Memory.lookup]
    rw [if_neg (by omega)]
    exact ih hm.2 (by omega)

/-- The memory made from a content is canonical. -/
theorem Memory.wf_ofFun (content : Word → Byte) : Memory.wf (Memory.ofFun content) = true := by
  have key : ∀ n lo, lo + n ≤ Config.memSize →
      Memory.wfFrom lo ((List.range' lo n).filterMap fun a =>
        if content (BitVec.ofNat 16 a) = Memory.unlistedByte then none
        else some (a, content (BitVec.ofNat 16 a))) = true := by
    intro n
    induction n with
    | zero => intro lo _; rfl
    | succ n ih =>
      intro lo h
      rw [List.range'_succ, List.filterMap_cons]
      have rest := ih (lo + 1) (by omega)
      split <;> rename_i hx
      · exact Memory.wfFrom_mono (Nat.le_succ lo) rest
      · split at hx
        · exact absurd hx (by simp)
        · obtain rfl := Option.some.inj hx
          simp only [Memory.wfFrom, Bool.and_eq_true, decide_eq_true_eq, bne_iff_ne, ne_eq]
          exact ⟨⟨⟨Nat.le_refl _, by omega⟩, ‹_›⟩, rest⟩
  have := key Config.memSize 0 (by omega)
  rwa [← List.range_eq_range'] at this

end Sys2Proof.Machine
end

