-- ==== Sys2Proof/Laws/Exec.lean ====
section
/-! SUPPORT. The outcome of each instruction, said once over the shared operations, and what a memory or flag operation
keeps in the terms of Sys2Proof/Safety.lean. Later proofs cite these and unfold no meaning. -/

namespace Sys2Proof.Machine

/-! ### Outcomes -/

theorem exec_nop (s : State) : exec .nop s = .next (setCycles s 4) := rfl
theorem exec_ldBd8 (d8 : Byte) (s : State) : exec (.ldBd8 d8) s = .next (setCycles (setReg s .b d8) 8) := rfl
theorem exec_ldCd8 (d8 : Byte) (s : State) : exec (.ldCd8 d8) s = .next (setCycles (setReg s .c d8) 8) := rfl
theorem exec_ldAd8 (d8 : Byte) (s : State) : exec (.ldAd8 d8) s = .next (setCycles (setReg s .a d8) 8) := rfl
theorem exec_ldCA (s : State) : exec .ldCA s = .next (setCycles (setReg s .c s.a) 4) := rfl
theorem exec_ldAatDE (s : State) :
    exec .ldAatDE s = .next (setCycles (setReg s .a (readByte s (addrDE s))) 8) := rfl
theorem exec_ldAtHLA (s : State) : exec .ldAtHLA s = .next (setCycles (writeByte s (addrHL s) s.a) 8) := rfl
theorem exec_ldAtHLdecA (s : State) :
    exec .ldAtHLdecA s = .next (setCycles (setPair (writeByte s (addrHL s) s.a) .hl (getPair s .hl - 1)) 8) := rfl
theorem exec_ldhAtNA (n : Byte) (s : State) :
    exec (.ldhAtNA n) s = .next (setCycles (writeByte s (addrHighPage n) s.a) 12) := rfl
theorem exec_ldAtCA (s : State) :
    exec .ldAtCA s = .next (setCycles (writeByte s (addrHighPage s.c) s.a) 8) := rfl
theorem exec_ldDEd16 (d16 : Word) (s : State) :
    exec (.ldDEd16 d16) s = .next (setCycles (setPair s .de d16) 12) := rfl
theorem exec_ldHLd16 (d16 : Word) (s : State) :
    exec (.ldHLd16 d16) s = .next (setCycles (setPair s .hl d16) 12) := rfl
theorem exec_ldSPd16 (d16 : Word) (s : State) : exec (.ldSPd16 d16) s = .next (setCycles (setSP s d16) 12) := rfl
theorem exec_pushBC (s : State) : exec .pushBC s = .next (setCycles (pushWord s (getPair s .bc)) 16) := rfl
theorem exec_incC (s : State) :
    exec .incC s =
      .next (setCycles (setZNH (setReg s .c (inc8 s.c).1) (inc8 s.c).2.1 false (inc8 s.c).2.2) 4) := rfl
theorem exec_xorA (s : State) :
    exec .xorA s = .next (setCycles (setZNHC (setReg s .a 0x00) true false false false) 4) := by
  have e : s.a ^^^ s.a = 0x00 := BitVec.xor_self
  change retire 4 (setZNHC (setReg s .a (s.a ^^^ s.a)) true false false false) = _
  rw [e]; rfl
theorem exec_rla (s : State) :
    exec .rla s =
      .next (setCycles (setZNHC (setReg s .a (rl8 s.a (getFlag s .c)).1) false false false (rl8 s.a (getFlag s .c)).2)
        4) := rfl
theorem exec_rlC (s : State) :
    exec .rlC s =
      .next (setCycles (setZNHC (setReg s .c (rl8 s.c (getFlag s .c)).1) ((rl8 s.c (getFlag s .c)).1 == 0x00) false
        false (rl8 s.c (getFlag s .c)).2) 8) := rfl
theorem exec_bit7H (s : State) :
    exec .bit7H s = .next (setCycles (setZNH s (!(s.h.getLsbD 7)) false true) 8) := rfl
theorem exec_jrNZ (r8 : Byte) (s : State) :
    exec (.jrNZ r8) s =
      if getFlag s .z then .next (setCycles s 8) else .next (setCycles (setPC s (jrTarget s r8)) 12) := by
  change execJrNZ r8 s = _
  unfold execJrNZ
  by_cases h : getFlag s .z = true
  · have e : ¬condNZ s = true := by simp [condNZ, h, jrNZTakenWhenZ]
    rw [if_neg e, if_pos h]; rfl
  · have e : condNZ s = true := by simp [condNZ, h, jrNZTakenWhenZ]
    rw [if_pos e, if_neg h]; rfl
theorem exec_callNN (nn : Word) (s : State) :
    exec (.callNN nn) s = .next (setCycles (setPC (pushWord s s.pc) nn) 24) := rfl

/-! ### Frames -/

/-- A state with the same memory list has the same cells. -/
theorem memKept_of_mem_eq {s t : State} (stored : List Word) (h : t.mem = s.mem) : MemKept stored s t :=
  fun a _ => readByte_congr s t h a

/-- A state whose memory list is that after one store. -/
theorem memKept_writeByte {s t : State} (a : Word) (v : Byte) (h : t.mem = (writeByte s a v).mem) : MemKept [a] s t := by
  intro b hb
  rw [readByte_congr (writeByte s a v) t h b]
  exact readByte_writeByte_ne s a b v (fun e => hb (by rw [e]; exact List.mem_singleton_self a))

/-- A state whose memory list is that after a push. -/
theorem memKept_pushWord {s t : State} (w : Word) (h : t.mem = (pushWord s w).mem) :
    MemKept [s.sp - 1, s.sp - 2] s t := by
  intro b hb
  rw [readByte_congr (pushWord s w) t h b, readByte_pushWord]
  rw [if_neg (fun e => hb (by rw [e]; exact .tail _ (.head _))), if_neg (fun e => hb (by rw [e]; exact .head _))]

/-- A state with the same F. -/
theorem flagsKept_of_f_eq {s t : State} (changed : List Flag) (h : t.f = s.f) : FlagsKept changed s t :=
  fun k _ => by rw [h]

/-- `setZNH` keeps every bit of F but Z, N, H. -/
theorem flagsKept_setZNH {s u t : State} (z n h : Bool) (hu : u.f = s.f) (e : t.f = (setZNH u z n h).f) :
    FlagsKept [.z, .n, .h] s t := by
  intro k hk
  have hz : 7 ≠ k := hk .z (.head _)
  have hn : 6 ≠ k := hk .n (.tail _ (.head _))
  have hh : 5 ≠ k := hk .h (.tail _ (.tail _ (.head _)))
  rw [e, setZNH_bit, if_neg (Ne.symm hh), if_neg (Ne.symm hn), if_neg (Ne.symm hz), hu]

/-- `setZNHC` keeps bits 3..0 of F. -/
theorem flagsKept_setZNHC {s u t : State} (z n h c : Bool) (hu : u.f = s.f) (e : t.f = (setZNHC u z n h c).f) :
    FlagsKept [.z, .n, .h, .c] s t := by
  intro k hk
  have hz : 7 ≠ k := hk .z (.head _)
  have hn : 6 ≠ k := hk .n (.tail _ (.head _))
  have hh : 5 ≠ k := hk .h (.tail _ (.tail _ (.head _)))
  have hc : 4 ≠ k := hk .c (.tail _ (.tail _ (.tail _ (.head _))))
  rw [e, setZNHC_bit, if_neg (Ne.symm hc), if_neg (Ne.symm hh), if_neg (Ne.symm hn), if_neg (Ne.symm hz), hu]

end Sys2Proof.Machine
end

