-- ==== Sys2Proof/Laws/PerInstr.lean ====
section
/-! SUPPORT. Facts about each instruction as syntax, one lemma for each constructor. -/

namespace Sys2Proof.Laws.EncodeShape

/-- The encoding of an instruction is a whole instruction of the dispatch table, has the length of its format, and its
first byte tells that length (30_encoding.md R84, R86, R87). -/
def Statement (i : Instr) : Prop :=
  wellFormedEncoding (encode i) = true ∧ (encode i).length = i.length ∧
    ∃ op rest, encode i = op :: rest ∧ instrLength op = i.length

theorem nop : Statement .nop := ⟨by decide, rfl, _, _, rfl, by decide⟩
theorem ldBd8 (d8 : Byte) : Statement (.ldBd8 d8) := ⟨by rfl, rfl, _, _, rfl, by rfl⟩
theorem incC : Statement .incC := ⟨by decide, rfl, _, _, rfl, by decide⟩
theorem ldCd8 (d8 : Byte) : Statement (.ldCd8 d8) := ⟨by rfl, rfl, _, _, rfl, by rfl⟩
theorem ldDEd16 (d16 : Word) : Statement (.ldDEd16 d16) := ⟨by rfl, rfl, _, _, rfl, by rfl⟩
theorem rla : Statement .rla := ⟨by decide, rfl, _, _, rfl, by decide⟩
theorem ldAatDE : Statement .ldAatDE := ⟨by decide, rfl, _, _, rfl, by decide⟩
theorem jrNZ (r8 : Byte) : Statement (.jrNZ r8) := ⟨by rfl, rfl, _, _, rfl, by rfl⟩
theorem ldHLd16 (d16 : Word) : Statement (.ldHLd16 d16) := ⟨by rfl, rfl, _, _, rfl, by rfl⟩
theorem ldSPd16 (d16 : Word) : Statement (.ldSPd16 d16) := ⟨by rfl, rfl, _, _, rfl, by rfl⟩
theorem ldAtHLdecA : Statement .ldAtHLdecA := ⟨by decide, rfl, _, _, rfl, by decide⟩
theorem ldAd8 (d8 : Byte) : Statement (.ldAd8 d8) := ⟨by rfl, rfl, _, _, rfl, by rfl⟩
theorem ldCA : Statement .ldCA := ⟨by decide, rfl, _, _, rfl, by decide⟩
theorem ldAtHLA : Statement .ldAtHLA := ⟨by decide, rfl, _, _, rfl, by decide⟩
theorem xorA : Statement .xorA := ⟨by decide, rfl, _, _, rfl, by decide⟩
theorem pushBC : Statement .pushBC := ⟨by decide, rfl, _, _, rfl, by decide⟩
theorem rlC : Statement .rlC := ⟨by decide, rfl, _, _, rfl, by decide⟩
theorem bit7H : Statement .bit7H := ⟨by decide, rfl, _, _, rfl, by decide⟩
theorem callNN (nn : Word) : Statement (.callNN nn) := ⟨by rfl, rfl, _, _, rfl, by rfl⟩
theorem ldhAtNA (n : Byte) : Statement (.ldhAtNA n) := ⟨by rfl, rfl, _, _, rfl, by rfl⟩
theorem ldAtCA : Statement .ldAtCA := ⟨by decide, rfl, _, _, rfl, by decide⟩

end Sys2Proof.Laws.EncodeShape
end

