-- ==== Sys2Proof/Laws/Step.lean ====
section
/-! SUPPORT. What fetching leaves, and everything a step can do. -/

namespace Sys2Proof.Machine

/-- PC advances by one byte, or by the instruction's length where it has more (R27, R87). -/
theorem instrLength_cases (op : Byte) : instrLength op = 1 ∨ instrLength op = 2 ∨ instrLength op = 3 := by
  unfold instrLength
  split
  · exact .inr (.inl rfl)
  · split
    · exact .inr (.inr rfl)
    · exact .inl rfl

/-- Adding one after `n` is adding `n + 1`, modulo 2^16. -/
theorem pc_add_succ (w : Word) (n : Nat) : w + BitVec.ofNat 16 n + 1 = w + BitVec.ofNat 16 (n + 1) := by
  rw [BitVec.add_assoc]
  congr 1
  simp [BitVec.ofNat_add]

/-- Byte 0 is the byte at PC. -/
theorem byteAt_zero (s : State) : byteAt s 0 = readByte s s.pc := by simp [byteAt]

/-- Fetching changes PC alone, by the number of bytes fetched, modulo 2^16. -/
theorem fetchInstr_left (s : State) :
    (fetchInstr s).left = setPC s (s.pc + BitVec.ofNat 16 (instrLength (byteAt s 0))) := by
  have e2 := pc_add_succ s.pc 1
  have e3 := pc_add_succ s.pc 2
  rw [byteAt_zero]
  rcases instrLength_cases (readByte s s.pc) with h | h | h <;> simp only [fetchInstr, fetch, h]
  · rfl
  · exact congrArg (setPC s) e2
  · exact congrArg (setPC s) ((congrArg (· + 1) e2).trans e3)

/-- The bytes fetched are those at PC and after it; a byte the instruction does not have stands as zero. -/
theorem fetchInstr_bytes (s : State) :
    (fetchInstr s).b0 = byteAt s 0 ∧
    (fetchInstr s).b1 = (if instrLength (byteAt s 0) = 1 then 0x00 else byteAt s 1) ∧
    (fetchInstr s).b2 = (if instrLength (byteAt s 0) = 3 then byteAt s 2 else 0x00) := by
  have e2 := pc_add_succ s.pc 1
  rw [byteAt_zero]
  rcases instrLength_cases (readByte s s.pc) with h | h | h <;> simp only [fetchInstr, fetch, h]
  · exact ⟨rfl, rfl, rfl⟩
  · exact ⟨rfl, rfl, rfl⟩
  · exact ⟨rfl, rfl, congrArg (readByte s) e2⟩

/-- What a step decodes is what stands at PC. -/
theorem decode_fetchInstr (s : State) :
    decode (fetchInstr s).b0 (fetchInstr s).b1 (fetchInstr s).b2 = decode (byteAt s 0) (byteAt s 1) (byteAt s 2) := by
  obtain ⟨h0, h1, h2⟩ := fetchInstr_bytes s
  rw [h0, h1, h2, ← decode_ignores]

/-- Everything a step can do: execute the decoded instruction past its bytes, or return the decode failure there. -/
theorem step_cases (s : State) :
    (∃ i, decode (byteAt s 0) (byteAt s 1) (byteAt s 2) = .ok i ∧
      step s = exec i (setPC s (s.pc + BitVec.ofNat 16 (instrLength (byteAt s 0))))) ∨
    (∃ info, decode (byteAt s 0) (byteAt s 1) (byteAt s 2) = .error info ∧
      step s = .fault (.decodeError info (setPC s (s.pc + BitVec.ofNat 16 (instrLength (byteAt s 0)))))) := by
  have hd := decode_fetchInstr s
  have hl := fetchInstr_left s
  unfold step
  cases h : decode (byteAt s 0) (byteAt s 1) (byteAt s 2) with
  | ok i => exact .inl ⟨i, rfl, by simp only [hd, h, hl]⟩
  | error info => exact .inr ⟨info, rfl, by simp only [hd, h, hl, raiseDecodeError]⟩

end Sys2Proof.Machine
end

