-- ==== Sys2Proof/Tests/Slice0.lean ====
section
/-! SUPPORT. The model's own tests. Expected results are those of spec/95_test_vectors.md (the vector's id stands before
each) and of the rules' own examples; none was taken from the model. Then a witness for the hypotheses of each obligation
that has any. -/

namespace Sys2Proof.Tests

open Sys2Proof Sys2Proof.Machine

/-- Bytes placed at an address, and PC there. -/
def placed (pc : Word) (bs : List Byte) (s : State) : State := writeBytes { s with pc := pc } pc bs

/-- The state after one step that executed. -/
def after (s : State) : Option State :=
  match step s with
  | .next t => some t
  | .fault _ => none
  | .refused _ => none

/-- What one failing step reports, and the PC and `cycles` it leaves. -/
def failure (s : State) : Option (DecodeError × Word × Nat) :=
  match step s with
  | .next _ => none
  | .fault (.decodeError info t) => some (info, t.pc, t.cycles)
  | .refused _ => none

/-- The state after `exec`. -/
def result (i : Instr) (s : State) : Option State :=
  match exec i s with
  | .next t => some t
  | .fault _ => none
  | .refused _ => none

/-- PC, F and `cycles` after one step: the columns every vector has. -/
def pcFCycles (s : State) : Option (Word × Byte × Nat) := (after s).map fun t => (t.pc, t.f, t.cycles)

/-! ### Well-formedness: each check refuses an ill-formed byte sequence -/

-- Check 1: 0xFF is no recognised first byte (R90, S6), and an empty sequence has none.
theorem test_wf_first_byte : firstByteRecognised [0xFF] = false ∧ firstByteRecognised [] = false ∧
    firstByteRecognised [0xCB] = true := by decide
-- Check 2: after the prefix only 0x11 and 0x7C select a row (R91, V-ERR-5).
theorem test_wf_row : rowSelected [0xCB, 0x7D] = false ∧ rowSelected [0xCB] = false ∧
    rowSelected [0xCB, 0x7C] = true := by decide
-- Check 3: LD HL,d16 has three bytes, NOP one (R84).
theorem test_wf_length : lengthFits [0x21, 0xFF] = false ∧ lengthFits [0x00, 0x00] = false ∧
    lengthFits [0x21, 0xFF, 0x9F] = true := by decide
theorem test_wf_encoding : wellFormedEncoding [0xE0] = false ∧ wellFormedEncoding [0xE0, 0x47] = true := by decide
-- The table has 21 rows and no two of them select the same bytes (R86).
theorem test_table_rows : opcodeTable.length = 21 ∧
    (opcodeTable.map fun r => (r.first, r.sub)).Nodup := by decide

/-! ### Decoding, each constructor by its bytes as 30_encoding.md R86 gives them -/

theorem test_decode_nop : decodeBytes [0b00000000] = .ok .nop := by rfl
theorem test_decode_ldBd8 : decodeBytes [0b00000110, 0x02] = .ok (.ldBd8 0x02) := by rfl
theorem test_decode_incC : decodeBytes [0b00001100] = .ok .incC := by rfl
theorem test_decode_ldCd8 : decodeBytes [0b00001110, 0x11] = .ok (.ldCd8 0x11) := by rfl
theorem test_decode_ldDEd16 : decodeBytes [0b00010001, 0x04, 0x01] = .ok (.ldDEd16 0x0104) := by rfl
theorem test_decode_rla : decodeBytes [0b00010111] = .ok .rla := by rfl
theorem test_decode_ldAatDE : decodeBytes [0b00011010] = .ok .ldAatDE := by rfl
theorem test_decode_jrNZ : decodeBytes [0b00100000, 0xFB] = .ok (.jrNZ 0xFB) := by rfl
theorem test_decode_ldHLd16 : decodeBytes [0b00100001, 0xFF, 0x9F] = .ok (.ldHLd16 0x9FFF) := by rfl
theorem test_decode_ldSPd16 : decodeBytes [0b00110001, 0xFE, 0xFF] = .ok (.ldSPd16 0xFFFE) := by rfl
theorem test_decode_ldAtHLdecA : decodeBytes [0b00110010] = .ok .ldAtHLdecA := by rfl
theorem test_decode_ldAd8 : decodeBytes [0b00111110, 0x05] = .ok (.ldAd8 0x05) := by rfl
theorem test_decode_ldCA : decodeBytes [0b01001111] = .ok .ldCA := by rfl
theorem test_decode_ldAtHLA : decodeBytes [0b01110111] = .ok .ldAtHLA := by rfl
theorem test_decode_xorA : decodeBytes [0b10101111] = .ok .xorA := by rfl
theorem test_decode_pushBC : decodeBytes [0b11000101] = .ok .pushBC := by rfl
theorem test_decode_rlC : decodeBytes [0b11001011, 0b00010001] = .ok .rlC := by rfl
theorem test_decode_bit7H : decodeBytes [0b11001011, 0b01111100] = .ok .bit7H := by rfl
theorem test_decode_callNN : decodeBytes [0b11001101, 0x10, 0x00] = .ok (.callNN 0x0010) := by rfl
theorem test_decode_ldhAtNA : decodeBytes [0b11100000, 0x47] = .ok (.ldhAtNA 0x47) := by rfl
theorem test_decode_ldAtCA : decodeBytes [0b11100010] = .ok .ldAtCA := by rfl
-- V-ERR-1, V-ERR-4, V-ERR-2, V-ERR-9
theorem test_decode_unknown : decodeBytes [0xFF] = .error (.unknown 0xFF) ∧
    decodeBytes [0x16, 0x55] = .error (.unknown 0x16) := ⟨rfl, rfl⟩
theorem test_decode_unknownCB : decodeBytes [0xCB, 0x00] = .error (.unknownCB 0x00) ∧
    decodeBytes [0xCB, 0xCB] = .error (.unknownCB 0xCB) := ⟨rfl, rfl⟩
-- Rows of spec/opcode_table.json: "match" of LD B,d8 is 0x0600, of RL C 0xCB11, of CALL nn 0xCD0000.
theorem test_table_word : decodeTableWord 16 0x0600 = some (.ldBd8 0x00) ∧ decodeTableWord 16 0xCB11 = some .rlC ∧
    decodeTableWord 24 0xCD0000 = some (.callNN 0x0000) ∧ decodeTableWord 8 0xFF = none := by decide

/-! ### 8-bit loads and stores -/

-- V-LD8-2
theorem test_ldBd8_wrap : (after (placed 0xFFFF [0x06, 0xAB] { State.reset with c := 0x34 })).map
    (fun t => (t.b, t.c, t.pc, t.cycles)) = some (0xAB, 0x34, 0x0001, 8) := by decide
-- V-LD8-3
theorem test_ldCd8_flags : (after (placed 0x0010 [0x0E, 0x11] { State.reset with c := 0xFF, f := 0xF0 })).map
    (fun t => (t.c, t.f, t.pc, t.cycles)) = some (0x11, 0xF0, 0x0012, 8) := by decide
-- V-LD8-4
theorem test_ldAd8_zero : (after (placed 0x0000 [0x3E, 0x00] { State.reset with a := 0x77 })).map
    (fun t => (t.a, t.f, t.pc, t.cycles)) = some (0x00, 0x00, 0x0002, 8) := by decide
-- V-LD8-5
theorem test_ldCA : (after (placed 0x0100 [0x4F] { State.reset with a := 0x81, c := 0x0A, b := 0x12 })).map
    (fun t => (t.c, t.a, getPair t .bc, t.pc, t.cycles)) = some (0x81, 0x81, 0x1281, 0x0101, 4) := by decide
-- V-LD8-7
theorem test_ldAatDE_own_opcode : (after (placed 0x0100 [0x1A] { State.reset with d := 0x01, e := 0x00 })).map
    (fun t => (t.a, getPair t .de, t.pc, t.cycles)) = some (0x1A, 0x0100, 0x0101, 8) := by decide
-- V-LD8-8
theorem test_ldAatDE_top : (after (placed 0x0100 [0x1A]
    (writeByte { State.reset with d := 0xFF, e := 0xFF } 0xFFFF 0x5A))).map (fun t => t.a) = some 0x5A := by decide
-- V-LD8-9
theorem test_ldAtHLA : (after (placed 0x0100 [0x77] { State.reset with h := 0x80, l := 0x10, a := 0x3C })).map
    (fun t => (readByte t 0x8010, getPair t .hl, t.pc, t.cycles)) = some (0x3C, 0x8010, 0x0101, 8) := by decide
-- V-LD8-10
theorem test_ldAtHLA_own_opcode : (after (placed 0x0100 [0x77] { State.reset with h := 0x01, l := 0x00 })).map
    (fun t => (readByte t 0x0100, t.pc, t.mem)) = some (0x00, 0x0101, []) := by decide
-- V-LD8-12
theorem test_ldAtHLdecA_borrow : (after (placed 0x0100 [0x32] { State.reset with h := 0x80, l := 0x00, a := 0x42 })).map
    (fun t => (readByte t 0x8000, t.h, t.l, t.pc, t.cycles)) = some (0x42, 0x7F, 0xFF, 0x0101, 8) := by decide
-- V-LD8-13
theorem test_ldAtHLdecA_wrap : (after (placed 0x0100 [0x32] { State.reset with a := 0x99 })).map
    (fun t => (readByte t 0x0000, getPair t .hl, t.f)) = some (0x99, 0xFFFF, 0x00) := by decide
-- V-LD8-14
theorem test_ldhAtNA : (after (placed 0x0100 [0xE0, 0x47] { State.reset with a := 0xFC })).map
    (fun t => (readByte t 0xFF47, t.pc, t.cycles)) = some (0xFC, 0x0102, 12) := by decide
-- V-LD8-15
theorem test_ldhAtNA_top : (after (placed 0x0100 [0xE0, 0xFF] { State.reset with a := 0x01 })).map
    (fun t => readByte t 0xFFFF) = some 0x01 := by decide
-- V-LD8-17
theorem test_ldAtCA : (after (placed 0x0100 [0xE2] { State.reset with c := 0x11, a := 0x80 })).map
    (fun t => (readByte t 0xFF11, t.pc, t.cycles)) = some (0x80, 0x0101, 8) := by decide
-- V-LD8-18
theorem test_ldAtCA_top : (after (placed 0x0100 [0xE2] { State.reset with c := 0xFF, a := 0x7E })).map
    (fun t => readByte t 0xFFFF) = some 0x7E := by decide

/-! ### 16-bit loads and the push -/

-- V-LD16-1
theorem test_ldDEd16 : (after (placed 0x0100 [0x11, 0x04, 0x01] State.reset)).map
    (fun t => (t.d, t.e, t.pc, t.cycles)) = some (0x01, 0x04, 0x0103, 12) := by decide
-- V-LD16-4
theorem test_ldHLd16_wrap : (after (placed 0xFFFF [0x21, 0x34, 0x12] State.reset)).map
    (fun t => (t.h, t.l, t.pc, t.cycles)) = some (0x12, 0x34, 0x0002, 12) := by decide
-- V-LD16-5
theorem test_ldSPd16_wrap : (after (placed 0xFFFE [0x31, 0xCD, 0xAB] State.reset)).map
    (fun t => (t.sp, t.pc, t.cycles)) = some (0xABCD, 0x0001, 12) := by decide
-- V-PUSH-1
theorem test_pushBC : (after (placed 0x0100 [0xC5] { State.reset with sp := 0xFFFC, b := 0x12, c := 0x85 })).map
    (fun t => (readByte t 0xFFFB, readByte t 0xFFFA, t.sp, t.pc, t.cycles)) = some (0x12, 0x85, 0xFFFA, 0x0101, 16) := by
  decide
-- V-PUSH-3
theorem test_pushBC_wrap : (after (placed 0x0100 [0xC5] { State.reset with sp := 0x0001, b := 0xAA, c := 0x55 })).map
    (fun t => (readByte t 0x0000, readByte t 0xFFFF, t.sp)) = some (0xAA, 0x55, 0xFFFF) := by decide

/-! ### ALU, rotates, bit test -/

-- V-INC-2
theorem test_incC_wrap : (after (placed 0x0100 [0x0C] { State.reset with c := 0xFF, f := 0x10, b := 0x12 })).map
    (fun t => (t.c, t.b, t.f, t.pc, t.cycles)) = some (0x00, 0x12, 0xB0, 0x0101, 4) := by decide
-- V-INC-4
theorem test_incC_half : (after (placed 0x0100 [0x0C] { State.reset with c := 0x7F, f := 0xF0 })).map
    (fun t => (t.c, t.f)) = some (0x80, 0x30) := by decide
-- V-XOR-2
theorem test_xorA : (after (placed 0x0100 [0xAF] { State.reset with a := 0xFF, f := 0x70 })).map
    (fun t => (t.a, t.f, t.pc, t.cycles)) = some (0x00, 0x80, 0x0101, 4) := by decide
-- V-RLA-1
theorem test_rla : (after (placed 0x0100 [0x17] { State.reset with a := 0xC0, f := 0x10 })).map
    (fun t => (t.a, t.f, t.pc, t.cycles)) = some (0x81, 0x10, 0x0101, 4) := by decide
-- V-RLA-2
theorem test_rla_zero : (after (placed 0x0100 [0x17] { State.reset with a := 0x80 })).map
    (fun t => (t.a, t.f)) = some (0x00, 0x10) := by decide
-- V-RLC-2
theorem test_rlC_zero : (after (placed 0x0100 [0xCB, 0x11] { State.reset with c := 0x80, b := 0x12 })).map
    (fun t => (t.c, t.b, t.f, t.pc, t.cycles)) = some (0x00, 0x12, 0x90, 0x0102, 8) := by decide
-- V-RLC-6
theorem test_rlC : (after (placed 0x0100 [0xCB, 0x11] { State.reset with c := 0x40, f := 0xF0 })).map
    (fun t => (t.c, t.f)) = some (0x81, 0x00) := by decide
-- V-BIT-2
theorem test_bit7H_clear : (after (placed 0x0100 [0xCB, 0x7C] { State.reset with h := 0x7F, f := 0x10 })).map
    (fun t => (t.h, t.f, t.pc, t.cycles)) = some (0x7F, 0xB0, 0x0102, 8) := by decide
-- V-BIT-5
theorem test_bit7H_set : (after (placed 0x0100 [0xCB, 0x7C] { State.reset with h := 0xFF, f := 0x50 })).map
    (fun t => t.f) = some 0x30 := by decide

/-! ### Control -/

-- V-NOP-2
theorem test_nop_wrap : pcFCycles (placed 0xFFFF [0x00] State.reset) = some (0x0000, 0x00, 4) := by decide
-- V-JR-7
theorem test_jrNZ_taken : pcFCycles (placed 0x0000 [0x20, 0x80] { State.reset with f := 0x70 }) =
    some (0xFF82, 0x70, 12) := by decide
-- V-JR-2
theorem test_jrNZ_not_taken : pcFCycles (placed 0x000A [0x20, 0xFB] { State.reset with f := 0xA0 }) =
    some (0x000C, 0xA0, 8) := by decide
-- V-CALL-3
theorem test_callNN_wrap : (after (placed 0xFFFD [0xCD, 0x00, 0x80] { State.reset with sp := 0xD000 })).map
    (fun t => (readByte t 0xCFFF, readByte t 0xCFFE, t.sp, t.pc, t.cycles)) = some (0x00, 0x00, 0xCFFE, 0x8000, 24) := by
  decide
-- V-CALL-4
theorem test_callNN_own_bytes : (after (placed 0x0100 [0xCD, 0x00, 0x02] { State.reset with sp := 0x0103 })).map
    (fun t => (readByte t 0x0102, readByte t 0x0101, t.sp, t.pc)) = some (0x01, 0x03, 0x0101, 0x0200) := by decide

/-! ### Decode failures -/

-- V-ERR-1
theorem test_unknown : failure (placed 0x0000 [0xFF] { State.reset with cycles := 12 }) =
    some (.unknown 0xFF, 0x0001, 12) := by decide
-- V-ERR-7
theorem test_unknownCB_wrap : failure (placed 0xFFFF [0xCB, 0x10] { State.reset with cycles := 4 }) =
    some (.unknownCB 0x10, 0x0001, 4) := by decide

/-! ### The environment -/

-- S7, the image of program P0: the loader puts it at address 0.
theorem test_loadRom : (loadRom [0x3E, 0x05, 0x06, 0x02, 0xAF] []).map (fun m =>
    (Memory.lookup m 0, Memory.lookup m 3, Memory.lookup m 4)) = some (0x3E, 0x02, 0xAF) := by decide

/-! ### Witnesses for the obligations' hypotheses -/

/-- LD B,0x02 at the top of memory. -/
def ldBAtTop : State := placed 0xFFFF [0x06, 0x02] State.reset

/-- 0xFF at the top of memory. -/
def unknownAtTop : State := placed 0xFFFF [0xFF] State.reset

/-- 0xCB 0x00 straddling the top of memory. -/
def unknownCBAtTop : State := placed 0xFFFF [0xCB, 0x00] State.reset

theorem witness_StepExecutesTheDecodedInstruction :
    decode (byteAt ldBAtTop 0) (byteAt ldBAtTop 1) (byteAt ldBAtTop 2) = .ok (.ldBd8 0x02) ∧
    (Instr.ldBd8 0x02).wellFormed = true := ⟨rfl, rfl⟩
theorem witness_DecodeOfEncode : (Instr.callNN 0xFFFF).wellFormed = true := by decide
theorem witness_EncodeOfDecode : decode 0xCD 0xFF 0xFE = .ok (.callNN 0xFEFF) := by rfl
theorem witness_UnrecognisedFirstByte :
    (fetch unknownAtTop).1 = 0xFF ∧ failure unknownAtTop = some (.unknown 0xFF, 0x0000, 0) := by decide
theorem witness_UnrecognisedSubOpcode :
    (fetch unknownCBAtTop).1 = 0xCB ∧ (fetch (fetch unknownCBAtTop).2).1 = 0x00 ∧
    failure unknownCBAtTop = some (.unknownCB 0x00, 0x0001, 0) := by decide
theorem witness_DecodeFailure_unknown : ∃ t, step unknownAtTop = .fault (.decodeError (.unknown 0xFF) t) := ⟨_, rfl⟩
theorem witness_DecodeFailure_unknownCB :
    ∃ t, step unknownCBAtTop = .fault (.decodeError (.unknownCB 0x00) t) := ⟨_, rfl⟩
theorem witness_rowSelected : rowSelected [byteAt ldBAtTop 0, byteAt ldBAtTop 1] = true ∧
    rowSelected [byteAt unknownAtTop 0, byteAt unknownAtTop 1] = false ∧
    rowSelected [byteAt unknownCBAtTop 0, byteAt unknownCBAtTop 1] = false := by decide

/-- The first bytes that the result statements name, each with a state that has it at PC. -/
theorem witness_first_bytes :
    ∀ op ∈ ([0x00, 0x06, 0x0C, 0x0E, 0x11, 0x17, 0x1A, 0x20, 0x21, 0x31, 0x32, 0x3E, 0x4F, 0x77, 0xAF, 0xC5, 0xCD, 0xE0,
      0xE2] : List Byte), (fetch (placed 0xFFFF [op] State.reset)).1 = op := by decide
/-- The two prefixed instructions, each with a state that has it at PC. -/
theorem witness_sub_opcodes :
    ∀ sb ∈ ([0x11, 0x7C] : List Byte), (fetch (placed 0xFFFF [0xCB, sb] State.reset)).1 = 0xCB ∧
      (fetch (fetch (placed 0xFFFF [0xCB, sb] State.reset)).2).1 = sb := by decide
theorem witness_PushedWord :
    (∃ t, exec .pushBC State.reset = .next t) ∧
    (∃ t, exec .pushBC { State.reset with sp := 0x0001, b := 0xAA, c := 0x55 } = .next t) ∧
    (∃ t, exec (.callNN 0x0000) State.reset = .next t) := ⟨⟨_, rfl⟩, ⟨_, rfl⟩, ⟨_, rfl⟩⟩
theorem witness_valid : State.reset.valid = true ∧ { State.reset with f := 0xF0 }.valid = true ∧
    { State.reset with f := 0x01 }.valid = false := by decide
theorem witness_NopDoesNothing : ∀ a : Word, readByte State.reset a = 0x00 := fun _ => rfl
theorem witness_JumpRelative : getFlag State.reset .z = false ∧ getFlag { State.reset with f := 0x80 } .z = true := by
  decide
theorem witness_Launch : ([0x3E, 0x05, 0x06, 0x02, 0xAF] : List Byte).length ≤ 0x10000 ∧
    ([] : List Byte).length ≤ 0x10000 := by decide
theorem witness_MemoriesThatReadAlike : Memory.wf [(0x0000, 0x01), (0xFFFF, 0x02)] = true ∧
    Memory.wf [(0x10000, 0x01)] = false ∧ Memory.wf [(0x0001, 0x00)] = false ∧
    Memory.wf [(0x0002, 0x01), (0x0001, 0x01)] = false := by decide
theorem witness_StepKeepsTheInvariant : ldBAtTop.inv = true ∧ unknownAtTop.inv = true ∧
    (∃ t, step ldBAtTop = .next t) ∧ (∃ info t, step unknownAtTop = .fault (.decodeError info t)) :=
  ⟨by decide, by decide, ⟨_, rfl⟩, ⟨_, _, rfl⟩⟩
theorem witness_RunsKeepTheInvariant : ldBAtTop.inv = true ∧ (∃ t, drive .halt 2 ldBAtTop = .next t) ∧
    (∃ t, drive .resume 2 unknownAtTop = .next t) ∧ (∃ t, driveUntil .halt 0x0001 2 ldBAtTop = .next t) :=
  ⟨by decide, ⟨_, rfl⟩, ⟨_, rfl⟩, ⟨_, rfl⟩⟩
theorem witness_SubtractFlag : getFlag unknownAtTop .n = false ∧ (∃ t, drive .resume 2 unknownAtTop = .next t) :=
  ⟨by decide, ⟨_, rfl⟩⟩
/-- A frame's hypothesis is met by an instruction of each shape: register, pair, SP, store, push, flag, jump, call. -/
theorem witness_frames :
    ∀ i ∈ ([.ldBd8 0xFF, .ldHLd16 0xFFFF, .ldSPd16 0xFFFF, .ldAtHLdecA, .pushBC, .bit7H, .jrNZ 0x80, .callNN 0xFFFF] :
      List Instr), (result i State.reset).isSome = true := by decide
/-- The state's memory and `m` agree on the cells a step from the state reads. -/
def agree (s : State) (m : Memory) : Bool :=
  (readAddrs s).all fun a => readByte { s with mem := m } a == readByte s a

/-- `agree` is the hypothesis of the statement. -/
theorem agree_iff (s : State) (m : Memory) :
    agree s m = true ↔ ∀ a ∈ readAddrs s, readByte { s with mem := m } a = readByte s a := by simp [agree]

/-- LD A,(DE) at 0x0100 with DE at the top of memory. -/
def ldAatDEAtTop : State := placed 0x0100 [0x1A] { State.reset with d := 0xFF, e := 0xFF }

/-- Memories that agree on the cells a step reads and differ elsewhere: one step that executes, one that reads a data
cell too, one that fails. -/
theorem witness_StepDependsOnly_executes :
    agree ldBAtTop [(0x0000, 0x02), (0x8000, 0x55), (0xFFFF, 0x06)] = true ∧
    agree ldBAtTop [(0x0000, 0x03), (0xFFFF, 0x06)] = false := by decide
theorem witness_StepDependsOnly_ldAatDE :
    agree ldAatDEAtTop [(0x0100, 0x1A), (0x8000, 0x55)] = true ∧
    agree ldAatDEAtTop [(0x0100, 0x1A), (0xFFFF, 0x55)] = false := by decide
theorem witness_StepDependsOnly_fails : agree unknownAtTop [(0x0000, 0x77), (0xFFFF, 0xFF)] = true := by decide
theorem witness_Cycles : (∃ t, step ldBAtTop = .next t) ∧ (∃ t, step unknownAtTop = .fault (.decodeError (.unknown 0xFF) t)) ∧
    (∃ t, exec (.jrNZ 0x00) State.reset = .next t) ∧ (∃ t, exec (.jrNZ 0x00) { State.reset with f := 0x80 } = .next t) :=
  ⟨⟨_, rfl⟩, ⟨_, rfl⟩, ⟨_, rfl⟩, ⟨_, rfl⟩⟩

/-- JR NZ,0x80 at the top of memory. -/
def jrAtTop : State := placed 0xFFFF [0x20, 0x80] State.reset

/-- CALL 0xFFFF at the top of memory. -/
def callAtTop : State := placed 0xFFFF [0xCD, 0xFF, 0xFF] State.reset

theorem witness_PCAdvances :
    (decode (byteAt jrAtTop 0) (byteAt jrAtTop 1) (byteAt jrAtTop 2) = .ok (.jrNZ 0x80) ∧ ∃ t, step jrAtTop = .next t) ∧
    (decode (byteAt callAtTop 0) (byteAt callAtTop 1) (byteAt callAtTop 2) = .ok (.callNN 0xFFFF) ∧
      ∃ t, step callAtTop = .next t) ∧
    (decode (byteAt ldBAtTop 0) (byteAt ldBAtTop 1) (byteAt ldBAtTop 2) = .ok (.ldBd8 0x02) ∧
      ∃ t, step ldBAtTop = .next t) :=
  ⟨⟨rfl, _, rfl⟩, ⟨rfl, _, rfl⟩, ⟨rfl, _, rfl⟩⟩
theorem witness_StoreIsSeen :
    (byteAt (placed 0xFFFF [0x77] State.reset) 0 = 0x77 ∧
      getPair (placed 0xFFFF [0x77] State.reset) .hl = (placed 0xFFFF [0x77] State.reset).pc + 1) ∧
    (byteAt (placed 0xFFFF [0x32] State.reset) 0 = 0x32 ∧
      getPair (placed 0xFFFF [0x32] State.reset) .hl = (placed 0xFFFF [0x32] State.reset).pc + 1) := by decide
theorem witness_PlacedTableWord : decodeTableWord 24 0x310000 = some (.ldSPd16 0x0000) := by decide
/-- One step of three and then the stop address; no step where PC is there at launch (log entry 27); all steps of one
where PC is there only after the last; a decode failure before it. -/
theorem witness_RunUntil :
    (∃ t, driveUntil .halt 0x0001 3 ldBAtTop = .next t ∧ drive .halt 1 ldBAtTop = .next t ∧ t.pc = 0x0001) ∧
    driveUntil .halt 0xFFFF 3 ldBAtTop = .next ldBAtTop ∧
    driveUntil .halt 0x0001 1 ldBAtTop = drive .halt 1 ldBAtTop ∧
    driveUntil .halt 0x0001 1 unknownAtTop = drive .halt 1 unknownAtTop := ⟨⟨_, rfl, rfl, rfl⟩, rfl, rfl, rfl⟩

end Sys2Proof.Tests
end

section
/-! PROOFS of the family 10_state.md. First the layer the later proofs stand on: the state each instruction leaves, as
one function tied to `exec` by `exec_eq_next`; what a step can do, as an inversion; what a driver's run keeps. -/

namespace Sys2Proof.Machine

/-! ## The state an instruction leaves -/

/-- The state `exec i` leaves, for every instruction over the shared operations (`exec_eq_next`). -/
def execState : Instr → State → State
  | .nop, s => setCycles s 4
  | .ldBd8 d8, s => setCycles (setReg s .b d8) 8
  | .incC, s => setCycles (setZNH (setReg s .c (inc8 s.c).1) (inc8 s.c).2.1 false (inc8 s.c).2.2) 4
  | .ldCd8 d8, s => setCycles (setReg s .c d8) 8
  | .ldDEd16 d16, s => setCycles (setPair s .de d16) 12
  | .rla, s =>
    setCycles (setZNHC (setReg s .a (rl8 s.a (getFlag s .c)).1) false false false (rl8 s.a (getFlag s .c)).2) 4
  | .ldAatDE, s => setCycles (setReg s .a (readByte s (addrDE s))) 8
  | .jrNZ r8, s => if getFlag s .z then setCycles s 8 else setCycles (setPC s (jrTarget s r8)) 12
  | .ldHLd16 d16, s => setCycles (setPair s .hl d16) 12
  | .ldSPd16 d16, s => setCycles (setSP s d16) 12
  | .ldAtHLdecA, s => setCycles (setPair (writeByte s (addrHL s) s.a) .hl (getPair s .hl - 1)) 8
  | .ldAd8 d8, s => setCycles (setReg s .a d8) 8
  | .ldCA, s => setCycles (setReg s .c s.a) 4
  | .ldAtHLA, s => setCycles (writeByte s (addrHL s) s.a) 8
  | .xorA, s => setCycles (setZNHC (setReg s .a 0x00) true false false false) 4
  | .pushBC, s => setCycles (pushWord s (getPair s .bc)) 16
  | .rlC, s =>
    setCycles (setZNHC (setReg s .c (rl8 s.c (getFlag s .c)).1) ((rl8 s.c (getFlag s .c)).1 == 0x00) false false
      (rl8 s.c (getFlag s .c)).2) 8
  | .bit7H, s => setCycles (setZNH s (!(s.h.getLsbD 7)) false true) 8
  | .callNN nn, s => setCycles (setPC (pushWord s s.pc) nn) 24
  | .ldhAtNA n, s => setCycles (writeByte s (addrHighPage n) s.a) 12
  | .ldAtCA, s => setCycles (writeByte s (addrHighPage s.c) s.a) 8

/-- Every instruction completes in every state (R171), and this is the state it leaves. -/
theorem exec_eq_next (i : Instr) (s : State) : exec i s = .next (execState i s) := by
  cases i with
  | jrNZ r8 => rw [exec_jrNZ, execState]; split <;> rfl
  | xorA => exact exec_xorA s
  | _ => rfl

theorem eq_execState_of_exec {i : Instr} {s t : State} (h : exec i s = .next t) : t = execState i s := by
  rw [exec_eq_next] at h
  exact (Host.Outcome.next.inj h).symm

/-! ## What a step can do -/

/-- The state in which the instruction at PC executes, or which its decode failure leaves: PC past the bytes fetched. -/
def afterFetch (s : State) : State := setPC s (s.pc + BitVec.ofNat 16 (instrLength (byteAt s 0)))

/-- A step that executes leaves the state of the instruction that stands at PC. -/
theorem step_next_inv {s t : State} (h : step s = .next t) :
    ∃ i, decode (byteAt s 0) (byteAt s 1) (byteAt s 2) = .ok i ∧ t = execState i (afterFetch s) := by
  obtain ⟨i, hd, hs⟩ | ⟨info, -, hs⟩ := step_cases s
  · exact ⟨i, hd, eq_execState_of_exec (hs.symm.trans h)⟩
  · cases hs.symm.trans h

/-- A step that fails reports what the decoder rejects and leaves the state after the fetches (R175). -/
theorem step_fault_inv {s t : State} {info : DecodeError} (h : step s = .fault (.decodeError info t)) :
    decode (byteAt s 0) (byteAt s 1) (byteAt s 2) = .error info ∧ t = afterFetch s := by
  obtain ⟨i, -, hs⟩ | ⟨info', hd, hs⟩ := step_cases s
  · cases (exec_eq_next _ _).symm.trans (hs.symm.trans h)
  · cases hs.symm.trans h
    exact ⟨hd, rfl⟩

theorem step_of_decode_ok {s : State} {i : Instr} (h : decode (byteAt s 0) (byteAt s 1) (byteAt s 2) = .ok i) :
    step s = .next (execState i (afterFetch s)) := by
  obtain ⟨i', hd, hs⟩ | ⟨info, hd, -⟩ := step_cases s
  · cases hd.symm.trans h
    exact hs.trans (exec_eq_next _ _)
  · cases hd.symm.trans h

theorem step_of_decode_error {s : State} {info : DecodeError}
    (h : decode (byteAt s 0) (byteAt s 1) (byteAt s 2) = .error info) :
    step s = .fault (.decodeError info (afterFetch s)) := by
  obtain ⟨i, hd, -⟩ | ⟨info', hd, hs⟩ := step_cases s
  · cases hd.symm.trans h
  · cases hd.symm.trans h
    exact hs

/-! ## What a driver's run keeps -/

/-- A driver goes on from the state a step executed to, or from the state its decode failure left. -/
theorem driverStep_next_inv {policy : Config.OnDecodeError} {s t : State} (h : driverStep policy s = .next t) :
    step s = .next t ∨ ∃ info, step s = .fault (.decodeError info t) := by
  unfold driverStep at h
  split at h
  · cases h; exact .inl ‹_›
  · cases policy <;> cases h
    exact .inr ⟨_, ‹_›⟩
  · cases h

section
variable {P : State → Prop} (executes : ∀ {s t}, step s = .next t → P s → P t)
  (fails : ∀ {s t info}, step s = .fault (.decodeError info t) → P s → P t)
include executes fails

theorem driverStep_keeps {policy : Config.OnDecodeError} {s t : State} (h : driverStep policy s = .next t)
    (hs : P s) : P t := by
  obtain h | ⟨_, h⟩ := driverStep_next_inv h
  · exact executes h hs
  · exact fails h hs

/-- What every step keeps, executing or failing, every run of `n` steps keeps. -/
theorem drive_keeps {policy : Config.OnDecodeError} {n : Nat} {s t : State} (h : drive policy n s = .next t)
    (hs : P s) : P t := by
  induction n generalizing s with
  | zero => cases h; exact hs
  | succ n ih =>
    unfold drive at h
    split at h
    · exact ih h (driverStep_keeps executes fails ‹_› hs)
    · cases h
    · cases h

/-- What every step keeps, executing or failing, every run to a stop address keeps. -/
theorem driveUntil_keeps {policy : Config.OnDecodeError} {stop : Word} {n : Nat} {s t : State}
    (h : driveUntil policy stop n s = .next t) (hs : P s) : P t := by
  induction n generalizing s with
  | zero => cases h; exact hs
  | succ n ih =>
    unfold driveUntil at h
    split at h
    · cases h; exact hs
    · split at h
      · exact ih h (driverStep_keeps executes fails ‹_› hs)
      · cases h
      · cases h

end

/-! ## Frames: registers, SP and flags -/

theorem getReg_setPair_ne (s : State) (p : Pair) (w : Word) {q : Reg8} (hh : q ≠ p.high) (hl : q ≠ p.low) :
    getReg (setPair s p w) q = getReg s q := by
  rw [setPair, getReg_setReg_ne _ _ _ _ hl, getReg_setReg_ne _ _ _ _ hh]

/-- Setting a register touches that register alone. -/
theorem regsKept_setReg (s : State) (r : Reg8) (v : Byte) : RegsKept [r] s (setReg s r v) :=
  fun q hq => getReg_setReg_ne s r q v (by simpa using hq)

/-- Setting a pair touches its two registers alone (R22). -/
theorem regsKept_setPair (s : State) (p : Pair) (w : Word) : RegsKept [p.high, p.low] s (setPair s p w) := by
  intro q hq
  obtain ⟨hh, hl⟩ : q ≠ p.high ∧ q ≠ p.low := by simpa using hq
  exact getReg_setPair_ne s p w hh hl

/-- The register table (R21). -/
theorem regsKept_execState (i : Instr) (s : State) : RegsKept (writtenRegs i) s (execState i s) := by
  intro r hr
  cases i with
  | nop | ldSPd16 | ldAtHLA | pushBC | bit7H | callNN | ldhAtNA | ldAtCA => simp [execState]
  | jrNZ r8 => rw [execState]; split <;> simp
  | ldBd8 | incC | ldCd8 | rla | ldAatDE | ldAd8 | ldCA | xorA | rlC =>
    simpa [execState] using regsKept_setReg s _ _ r hr
  | ldDEd16 => simpa [execState] using regsKept_setPair s .de _ r hr
  | ldHLd16 => simpa [execState] using regsKept_setPair s .hl _ r hr
  | ldAtHLdecA => simpa [execState] using regsKept_setPair (writeByte s _ _) .hl _ r hr

/-- What each instruction makes of SP (R21, R25). -/
theorem execState_sp (i : Instr) (s : State) : (execState i s).sp = spAfter i s := by
  cases i with
  | jrNZ r8 => rw [execState]; split <;> rfl
  | pushBC | callNN => exact pushWord_sp s _
  | _ => rfl

/-- The flag table (R32): only `setZNH` and `setZNHC` write F. -/
theorem flagsKept_execState (i : Instr) (s : State) : FlagsKept (writtenFlags i) s (execState i s) := by
  cases i with
  | incC => exact flagsKept_setZNH _ _ _ (setReg_f s _ _) (setCycles_f _ _)
  | bit7H => exact flagsKept_setZNH _ _ _ rfl (setCycles_f _ _)
  | rla | xorA | rlC => exact flagsKept_setZNHC _ _ _ _ (setReg_f s _ _) (setCycles_f _ _)
  | jrNZ r8 => rw [execState]; split <;> exact flagsKept_of_f_eq _ rfl
  | _ => exact flagsKept_of_f_eq _ (by simp [execState])

/-- Settles O38: by the register table and the SP column of the state each instruction leaves. -/
theorem onlyListedRegistersChange : Obligations.OnlyListedRegistersChange := by
  intro i s t h
  obtain rfl := eq_execState_of_exec h
  exact ⟨regsKept_execState i s, execState_sp i s⟩

/-- Settles O39: by the flag table of the state each instruction leaves. -/
theorem onlyListedFlagsChange : Obligations.OnlyListedFlagsChange := by
  intro i s t h
  obtain rfl := eq_execState_of_exec h
  exact flagsKept_execState i s

/-! ## The invariant -/

theorem State.inv_iff (s : State) : s.inv = true ↔ s.valid = true ∧ Memory.wf s.mem = true := by
  simp [State.inv]

/-- Validity (R42), bit by bit. -/
theorem State.valid_iff (s : State) : s.valid = true ↔ ∀ k < 4, s.f.getLsbD k = false := by
  rw [State.valid, beq_iff_eq]
  constructor
  · intro h k hk
    have := congrArg (BitVec.getLsbD · k) h
    simpa [BitVec.getLsbD_extractLsb', hk] using this
  · intro h
    refine BitVec.eq_of_getLsbD_eq fun k hk => ?_
    simpa [BitVec.getLsbD_extractLsb', hk] using h k hk

theorem four_le_flagBit (x : Flag) : 4 ≤ flagBit x := by cases x <;> decide

/-- No flag lies in F[3:0], so whatever flags are written the state stays valid (R30). -/
theorem FlagsKept.valid {changed : List Flag} {s t : State} (h : FlagsKept changed s t) (hs : s.valid = true) :
    t.valid = true := by
  rw [State.valid_iff] at hs ⊢
  intro k hk
  rw [h k fun x _ => by have := four_le_flagBit x; omega]
  exact hs k hk

/-- Memory changes by stores and pushes alone, so its list stays canonical. -/
theorem wf_execState (i : Instr) {s : State} (h : Memory.wf s.mem = true) :
    Memory.wf (execState i s).mem = true := by
  cases i with
  | ldAtHLA | ldAtHLdecA | ldhAtNA | ldAtCA => exact wf_writeByte s _ _ h
  | pushBC | callNN => exact wf_pushWord s _ h
  | jrNZ r8 => rw [execState]; split <;> exact h
  | _ => exact h

theorem inv_execState (i : Instr) {s : State} (h : s.inv = true) : (execState i s).inv = true := by
  rw [State.inv_iff] at h ⊢
  exact ⟨(flagsKept_execState i s).valid h.1, wf_execState i h.2⟩

/-- Fetching changes PC alone, which the invariant does not speak of. -/
theorem inv_afterFetch (s : State) : (afterFetch s).inv = s.inv := rfl

theorem inv_of_step_next {s t : State} (h : step s = .next t) (hs : s.inv = true) : t.inv = true := by
  obtain ⟨i, -, rfl⟩ := step_next_inv h
  exact inv_execState i ((inv_afterFetch s).trans hs)

theorem inv_of_step_fault {s t : State} {info : DecodeError} (h : step s = .fault (.decodeError info t))
    (hs : s.inv = true) : t.inv = true := by
  obtain ⟨-, rfl⟩ := step_fault_inv h
  exact (inv_afterFetch s).trans hs

/-- Settles O35: by the flag table for F, by the stores for memory. -/
theorem stepKeepsTheInvariant : Obligations.StepKeepsTheInvariant :=
  fun _ hs => ⟨fun _ h => inv_of_step_next h hs, fun _ _ h => inv_of_step_fault h hs⟩

/-- Settles O36: by induction on the number of steps, each of which keeps the invariant (O35). -/
theorem runsKeepTheInvariant : Obligations.RunsKeepTheInvariant :=
  fun _ _ _ _ hs =>
    ⟨fun _ h => drive_keeps (P := fun s => s.inv = true) inv_of_step_next inv_of_step_fault h hs,
      fun _ h => driveUntil_keeps (P := fun s => s.inv = true) inv_of_step_next inv_of_step_fault h hs⟩

/-! ## `cycles` and PC -/

/-- No instruction reads `cycles`, and each overwrites it (R34). -/
theorem execState_setCycles (i : Instr) (s : State) (n : Nat) : execState i (setCycles s n) = execState i s := by
  cases i <;> rfl

theorem byteAt_setCycles (s : State) (n k : Nat) : byteAt (setCycles s n) k = byteAt s k := rfl

theorem afterFetch_setCycles (s : State) (n : Nat) : afterFetch (setCycles s n) = setCycles (afterFetch s) n := rfl

theorem step_setCycles_of_next {s t : State} (n : Nat) (h : step s = .next t) : step (setCycles s n) = .next t := by
  obtain ⟨i, hd, rfl⟩ := step_next_inv h
  rw [step_of_decode_ok (s := setCycles s n) hd, afterFetch_setCycles, execState_setCycles]

theorem step_setCycles_of_fault {s t : State} {info : DecodeError} (n : Nat)
    (h : step s = .fault (.decodeError info t)) :
    step (setCycles s n) = .fault (.decodeError info (setCycles t n)) := by
  obtain ⟨hd, rfl⟩ := step_fault_inv h
  rw [step_of_decode_error (s := setCycles s n) hd, afterFetch_setCycles]

/-- Settles O42: fetch and decode look at PC and memory alone, and `execState_setCycles` covers the execution. -/
theorem cyclesInfluencesNothing : Obligations.CyclesInfluencesNothing :=
  fun _ n => ⟨fun _ h => step_setCycles_of_next n h, fun _ _ h => step_setCycles_of_fault n h⟩

theorem afterFetch_of_decode {s : State} {i : Instr} (h : decode (byteAt s 0) (byteAt s 1) (byteAt s 2) = .ok i) :
    afterFetch s = setPC s (s.pc + BitVec.ofNat 16 i.length) := by
  rw [afterFetch, length_of_decode h]

/-- Settles O44: PC is past the instruction when it executes, and only JR NZ,r8 and CALL nn write it then (R27). -/
theorem pcAdvancesByTheLength : Obligations.PCAdvancesByTheLength := by
  intro s t i hd h
  cases (step_of_decode_ok hd).symm.trans h
  rw [afterFetch_of_decode hd]
  cases i with
  | jrNZ r8 =>
    have hlen : BitVec.ofNat 16 (Instr.jrNZ r8).length = 2 := rfl
    rw [hlen, execState]
    cases hz : getFlag s .z <;> simp [hz, jrTarget]
  | _ => rfl

/-! ## Register pairs -/

theorem Pair.high_ne_low (p : Pair) : p.high ≠ p.low := by cases p <;> decide

theorem getPair_setReg_high (s : State) (p : Pair) (v : Byte) :
    getPair (setReg s p.high v) p = joinBytes v (getReg s p.low) := by
  rw [getPair, getReg_setReg_same, getReg_setReg_ne _ _ _ _ p.high_ne_low.symm]

theorem getPair_setReg_low (s : State) (p : Pair) (v : Byte) :
    getPair (setReg s p.low v) p = joinBytes (getReg s p.high) v := by
  rw [getPair, getReg_setReg_same, getReg_setReg_ne _ _ _ _ p.high_ne_low]

theorem getReg_setPair_high (s : State) (p : Pair) (w : Word) : getReg (setPair s p w) p.high = hi8 w := by
  rw [setPair, getReg_setReg_ne _ _ _ _ p.high_ne_low, getReg_setReg_same]

theorem getReg_setPair_low (s : State) (p : Pair) (w : Word) : getReg (setPair s p w) p.low = lo8 w :=
  getReg_setReg_same _ _ _

theorem getPair_setPair_same (s : State) (p : Pair) (w : Word) : getPair (setPair s p w) p = w := by
  rw [getPair, getReg_setPair_high, getReg_setPair_low, joinBytes_hi8_lo8]

theorem keptBut_setPair (s : State) (p : Pair) (w : Word) : KeptBut [p.high, p.low] [] [] s (setPair s p w) :=
  ⟨regsKept_setPair s p w, flagsKept_of_f_eq _ (setPair_f s p w), memKept_of_mem_eq _ (setPair_mem s p w)⟩

/-- Settles O29: from the register accessors, since a pair's two registers differ. -/
theorem pairsAreAliases : Obligations.PairsAreAliases := by
  refine ⟨fun s => ⟨rfl, rfl, rfl⟩, fun s p => ⟨getPair_setPair_same s p,
    fun w => ⟨getReg_setPair_high s p w, getReg_setPair_low s p w⟩, fun h l => ?_,
    fun v => ⟨getPair_setReg_high s p v, getPair_setReg_low s p v⟩,
    fun w => ⟨setPair_pc s p w, setPair_sp s p w, setPair_cycles s p w, keptBut_setPair s p w⟩⟩⟩
  rw [getPair_setReg_low, getReg_setReg_same, joinBytes_toNat]

/-! ## The flag accessor -/

/-- A flag's mask: the byte with its bit of F alone. `flagAccessorTouchesOneBit` compares it with R29's four. -/
def flagMask (x : Flag) : Byte := BitVec.twoPow 8 (flagBit x)

theorem flagMask_getLsbD (x : Flag) (k : Nat) : (flagMask x).getLsbD k = decide (k = flagBit x) := by
  simp [flagMask, BitVec.getLsbD_twoPow, flagBit_lt x, eq_comm]

theorem getFlag_eq_true_iff (s : State) (x : Flag) : getFlag s x = true ↔ s.f &&& flagMask x = flagMask x := by
  constructor
  · intro h
    refine BitVec.eq_of_getLsbD_eq fun k _ => ?_
    rw [BitVec.getLsbD_and, flagMask_getLsbD]
    by_cases hk : k = flagBit x
    · subst hk; simpa [getFlag] using h
    · simp [hk]
  · intro h
    have := congrArg (BitVec.getLsbD · (flagBit x)) h
    simpa [flagMask_getLsbD, getFlag] using this

/-- The setter's result is known from the bits of its F. -/
theorem setFlag_eq_of_bits {s : State} {x : Flag} {v : Bool} {f : Byte}
    (h : ∀ k < 8, f.getLsbD k = if k = flagBit x then v else s.f.getLsbD k) : setFlag s x v = { s with f := f } := by
  have hf : (setFlag s x v).f = f := BitVec.eq_of_getLsbD_eq fun k hk => by rw [setFlag_bit, h k hk]
  rw [← hf]; rfl

theorem setFlag_true (s : State) (x : Flag) : setFlag s x true = { s with f := s.f ||| flagMask x } := by
  refine setFlag_eq_of_bits fun k _ => ?_
  rw [BitVec.getLsbD_or, flagMask_getLsbD]
  split <;> simp [*]

theorem setFlag_false (s : State) (x : Flag) : setFlag s x false = { s with f := s.f &&& ~~~flagMask x } := by
  refine setFlag_eq_of_bits fun k hk => ?_
  rw [BitVec.getLsbD_and, BitVec.getLsbD_not, flagMask_getLsbD]
  split <;> simp [*]

/-- Settles O30: the masks of R29 are the flags' bits. -/
theorem flagAccessorTouchesOneBit : Obligations.FlagAccessorTouchesOneBit := by
  intro s x mask
  have hmask : mask = flagMask x := by cases x <;> rfl
  rw [hmask]
  exact ⟨getFlag_eq_true_iff s x, setFlag_true s x, setFlag_false s x⟩

/-! ## Reset -/

/-- Settles O31: by the reset value of each register, pair and flag. -/
theorem everyRegisterIsZeroAtReset : Obligations.EveryRegisterIsZeroAtReset := by
  refine ⟨fun r => ?_, fun p => ?_, fun x => ?_, rfl, rfl, rfl⟩
  · cases r <;> rfl
  · cases p <;> rfl
  · cases x <;> rfl

/-- Settles O32: F is 0 and the empty list is canonical. -/
theorem resetSatisfiesTheInvariant : Obligations.ResetSatisfiesTheInvariant :=
  (State.inv_iff _).mpr ⟨rfl, rfl⟩

/-! ## The launch state -/

/-- One entry of `Memory.ofFun`: none where the content is what an unlisted cell reads as. -/
theorem Memory.lookup_filterMap_content (content : Word → Byte) (keys : List Nat) (b : Nat) :
    Memory.lookup (keys.filterMap fun a =>
        if content (BitVec.ofNat 16 a) = Memory.unlistedByte then none
        else some (a, content (BitVec.ofNat 16 a))) b =
      if b ∈ keys then content (BitVec.ofNat 16 b) else Memory.unlistedByte := by
  induction keys with
  | nil => rfl
  | cons k keys ih =>
    rw [List.filterMap_cons]
    by_cases hk : content (BitVec.ofNat 16 k) = Memory.unlistedByte
    · rw [if_pos hk, ih]
      by_cases hb : b = k
      · subst hb; simp [hk]
      · simp [hb]
    · rw [if_neg hk, Memory.lookup, ih]
      by_cases hb : k = b
      · subst hb; simp
      · simp [hb, Ne.symm hb]

/-- `Memory.ofFun` holds the content it is made from. -/
theorem Memory.lookup_ofFun (content : Word → Byte) (a : Word) :
    Memory.lookup (Memory.ofFun content) a.toNat = content a := by
  have ha : a.toNat ∈ List.range Config.memSize := List.mem_range.mpr a.isLt
  rw [Memory.ofFun, Memory.lookup_filterMap_content, if_pos ha, BitVec.ofNat_toNat, BitVec.setWidth_eq]

/-- The loader's image lies at `a` and after it; every other cell is kept. -/
theorem Memory.lookup_load (bs : List Byte) (a : Nat) (m : Memory) (b : Nat) :
    Memory.lookup (Memory.load a bs m) b =
      if a ≤ b then bs.getD (b - a) (Memory.lookup m b) else Memory.lookup m b := by
  induction bs generalizing a m with
  | nil => simp [Memory.load]
  | cons v bs ih =>
    rw [Memory.load, ih, Memory.lookup_put]
    obtain hlt | rfl | hgt := Nat.lt_trichotomy a b
    · obtain ⟨d, rfl⟩ : ∃ d, b = a + 1 + d := ⟨b - (a + 1), by omega⟩
      have hd : a + 1 + d - a = d + 1 := by omega
      simp [hd, show a + 1 + d ≠ a by omega, show a ≤ a + 1 + d by omega]
    · simp
    · simp [show ¬a + 1 ≤ b by omega, show ¬a ≤ b by omega, show b ≠ a by omega]

theorem Memory.wf_load {bs : List Byte} {a : Nat} {m : Memory} (ha : a + bs.length ≤ Config.memSize)
    (hm : Memory.wf m = true) : Memory.wf (Memory.load a bs m) = true := by
  induction bs generalizing a m with
  | nil => exact hm
  | cons v bs ih =>
    rw [List.length_cons] at ha
    exact ih (by omega) (Memory.wf_put v (by omega) hm)

/-- Settles O33: the loader's stores lie over `Memory.ofFun`, and both keep the list canonical. -/
theorem launchHoldsTheImageAndInitMem : Obligations.LaunchHoldsTheImageAndInitMem := by
  intro initMem image hlen
  have hfits : Config.romBase + image.length ≤ Config.memSize := by
    simpa [Config.romBase, Config.memSize] using hlen
  refine ⟨{ State.reset with mem := Memory.load Config.romBase image (Memory.ofFun initMem) },
    ?_, rfl, ?_, fun a => ?_⟩
  · rw [launch, loadRom, if_pos hfits]; rfl
  · exact (State.inv_iff _).mpr ⟨rfl, Memory.wf_load hfits (Memory.wf_ofFun initMem)⟩
  · rw [readByte, Memory.lookup_load, Memory.lookup_ofFun]
    exact if_pos (Nat.zero_le _)

/-! ## Canonical memory lists -/

theorem Memory.wfFrom_cons {lo k : Nat} {v : Byte} {rest : Memory} :
    Memory.wfFrom lo ((k, v) :: rest) = true ↔
      lo ≤ k ∧ k < Config.memSize ∧ v ≠ Memory.unlistedByte ∧ Memory.wfFrom (k + 1) rest = true := by
  simp [Memory.wfFrom, and_assoc]

@[simp] theorem Memory.lookup_cons_same (k : Nat) (v : Byte) (rest : Memory) :
    Memory.lookup ((k, v) :: rest) k = v := if_pos rfl

theorem Memory.lookup_cons_ne {k a : Nat} (h : k ≠ a) (v : Byte) (rest : Memory) :
    Memory.lookup ((k, v) :: rest) a = Memory.lookup rest a := if_neg h

/-- A canonical list has an entry at its first key, which no canonical list of later keys has. -/
theorem Memory.exists_lookup_ne {lo k : Nat} {v : Byte} {rest m : Memory}
    (h : Memory.wfFrom lo ((k, v) :: rest) = true) (hm : Memory.wfFrom (k + 1) m = true) :
    ∃ a < Config.memSize, Memory.lookup ((k, v) :: rest) a ≠ Memory.lookup m a := by
  obtain ⟨-, hk, hv, -⟩ := Memory.wfFrom_cons.mp h
  refine ⟨k, hk, ?_⟩
  rwa [Memory.lookup_cons_same, Memory.lookup_of_lt hm (Nat.lt_succ_self k)]

/-- Two canonical lists that read alike have the same first key, hence the same first entry, and then equal tails. -/
theorem Memory.eq_of_lookup_eq {lo : Nat} {m m' : Memory} (hm : Memory.wfFrom lo m = true)
    (hm' : Memory.wfFrom lo m' = true)
    (h : ∀ a < Config.memSize, Memory.lookup m a = Memory.lookup m' a) : m = m' := by
  induction m generalizing lo m' with
  | nil =>
    match m' with
    | [] => rfl
    | (k, v) :: rest =>
      obtain ⟨a, ha, hne⟩ := Memory.exists_lookup_ne (m := []) hm' rfl
      exact absurd (h a ha).symm hne
  | cons cell rest ih =>
    obtain ⟨k, v⟩ := cell
    match m' with
    | [] =>
      obtain ⟨a, ha, hne⟩ := Memory.exists_lookup_ne (m := []) hm rfl
      exact absurd (h a ha) hne
    | (k', v') :: rest' =>
      obtain ⟨-, hk, hv, hrest⟩ := Memory.wfFrom_cons.mp hm
      obtain ⟨-, hk', hv', hrest'⟩ := Memory.wfFrom_cons.mp hm'
      obtain hlt | rfl | hgt := Nat.lt_trichotomy k k'
      · obtain ⟨a, ha, hne⟩ := Memory.exists_lookup_ne hm (Memory.wfFrom_cons.mpr ⟨hlt, hk', hv', hrest'⟩)
        exact absurd (h a ha) hne
      · have hvv : v = v' := by simpa using h k hk
        have htail : rest = rest' := by
          refine ih hrest hrest' fun a ha => ?_
          by_cases hka : k = a
          · subst hka
            rw [Memory.lookup_of_lt hrest (Nat.lt_succ_self k), Memory.lookup_of_lt hrest' (Nat.lt_succ_self k)]
          · simpa only [Memory.lookup_cons_ne hka] using h a ha
        rw [hvv, htail]
      · obtain ⟨a, ha, hne⟩ := Memory.exists_lookup_ne hm' (Memory.wfFrom_cons.mpr ⟨hgt, hk, hv, hrest⟩)
        exact absurd (h a ha).symm hne

/-- Settles O34: by induction on the first list. -/
theorem memoriesThatReadAlikeAreEqual : Obligations.MemoriesThatReadAlikeAreEqual := by
  intro m m' hm hm' h
  refine Memory.eq_of_lookup_eq hm hm' fun a ha => ?_
  have hword : (BitVec.ofNat 16 a).toNat = a := Nat.mod_eq_of_lt ha
  simpa only [hword] using h (BitVec.ofNat 16 a)

end Sys2Proof.Machine
end

section
/-! PROOFS of the family 20_memory.md: what a push leaves at the top of the stack, which cells an instruction stores to,
and which cells a step reads. -/

namespace Sys2Proof.Machine

/-! ## The word at the top of the stack -/

/-- A state with the memory and SP of a push has the word at SP, low byte first, and SP two lower (R54). -/
theorem pushWord_top {s t : State} {w : Word} (hmem : t.mem = (pushWord s w).mem) (hsp : t.sp = (pushWord s w).sp) :
    readByte t t.sp = lo8 w ∧ readByte t (t.sp + 1) = hi8 w ∧ t.sp + 2 = s.sp := by
  rw [pushWord_sp] at hsp
  have hhigh : t.sp + 1 = s.sp - 1 := by bv_omega
  have hne : s.sp - 1 ≠ s.sp - 2 := by bv_omega
  refine ⟨?_, ?_, by bv_omega⟩
  · rw [readByte_congr _ t hmem, readByte_pushWord, if_pos hsp]
  · rw [readByte_congr _ t hmem, readByte_pushWord, hhigh, if_neg hne, if_pos rfl]

/-- Settles O19: PUSH BC leaves the memory and SP of a push of BC, CALL nn those of a push of the return address. -/
theorem pushedWordLiesLittleEndianAtTheTop : Obligations.PushedWordLiesLittleEndianAtTheTop := by
  refine ⟨fun s t h => ?_, fun s t nn h => ?_⟩
  · obtain rfl := eq_execState_of_exec h
    obtain ⟨hlow, hhigh, hsp⟩ := pushWord_top (s := s) (w := getPair s .bc) (t := execState .pushBC s) rfl rfl
    rw [hlow, hhigh]
    exact ⟨lo8_joinBytes s.b s.c, hi8_joinBytes s.b s.c, joinBytes_hi8_lo8 _, hsp⟩
  · obtain rfl := eq_execState_of_exec h
    obtain ⟨hlow, hhigh, hsp⟩ := pushWord_top (s := s) (w := s.pc) (t := execState (.callNN nn) s) rfl rfl
    rw [hlow, hhigh]
    exact ⟨joinBytes_hi8_lo8 _, hsp⟩

/-! ## The cells an instruction stores to -/

/-- The memory table (R57): one store, a push, or none. -/
theorem memKept_execState (i : Instr) (s : State) : MemKept (storedAddrs i s) s (execState i s) := by
  cases i with
  | ldAtHLA | ldAtHLdecA | ldhAtNA | ldAtCA => exact memKept_writeByte _ s.a rfl
  | pushBC | callNN => exact memKept_pushWord _ rfl
  | jrNZ r8 => rw [execState]; split <;> exact memKept_of_mem_eq _ rfl
  | _ => exact memKept_of_mem_eq _ rfl

/-- Settles O40: by the memory table of the state each instruction leaves. -/
theorem onlyListedCellsChange : Obligations.OnlyListedCellsChange := by
  intro i s t h
  obtain rfl := eq_execState_of_exec h
  exact memKept_execState i s

/-! ## A step under another memory -/

/-- The stored addresses come from the registers and the operands. -/
theorem storedAddrs_withMem (i : Instr) (s : State) (m : Memory) :
    storedAddrs i { s with mem := m } = storedAddrs i s := by
  cases i <;> rfl

/-- A push of one word at one SP stores the same two bytes, whatever memory held. -/
theorem readByte_pushWord_of_stored {s t : State} {a : Word} (w : Word) (hsp : t.sp = s.sp)
    (ha : a ∈ [s.sp - 1, s.sp - 2]) : readByte (pushWord t w) a = readByte (pushWord s w) a := by
  rw [readByte_pushWord, readByte_pushWord, hsp]
  refine if_congr_branches (fun _ => rfl) fun h2 => if_congr_branches (fun _ => rfl) fun h1 => ?_
  exact (List.mem_pair.mp ha).elim (absurd · h1) (absurd · h2)

/-- What is stored comes from the registers, never from memory. -/
theorem readByte_execState_withMem_of_stored {i : Instr} {s : State} {a : Word} (m : Memory) (ha : a ∈ storedAddrs i s) :
    readByte (execState i { s with mem := m }) a = readByte (execState i s) a := by
  cases i with
  | ldAtHLA | ldAtHLdecA | ldhAtNA | ldAtCA =>
    obtain rfl := List.mem_singleton.mp ha
    exact (readByte_writeByte_same { s with mem := m } _ s.a).trans (readByte_writeByte_same s _ s.a).symm
  | pushBC => exact readByte_pushWord_of_stored (t := { s with mem := m }) (getPair s .bc) rfl ha
  | callNN => exact readByte_pushWord_of_stored (t := { s with mem := m }) s.pc rfl ha
  | _ => cases ha

/-- An instruction reads no memory but, for LD A,(DE), the cell at DE: under another memory it leaves the same state but
for its memory. -/
theorem execState_withMem {i : Instr} {s : State} {m : Memory}
    (hDE : i = .ldAatDE → readByte { s with mem := m } (addrDE s) = readByte s (addrDE s)) :
    execState i { s with mem := m } = { execState i s with mem := (execState i { s with mem := m }).mem } := by
  cases i with
  | ldAatDE =>
    have hread : readByte { s with mem := m } (addrDE { s with mem := m }) = readByte s (addrDE s) := hDE rfl
    rw [execState, execState, hread]; rfl
  | jrNZ r8 =>
    have hz : getFlag { s with mem := m } .z = getFlag s .z := rfl
    rw [execState, execState, hz]; split <;> rfl
  | _ => rfl

/-- LD A,(DE) has one byte, so no operand is looked at and the 256 first bytes decide. -/
theorem opcode_of_decode_ldAatDE {op b1 b2 : Byte} (h : decode op b1 b2 = .ok .ldAatDE) : op = 0x1A := by
  have hlen : instrLength op = 1 := length_of_decode h
  rw [decode_of_length_one hlen b1 b2 0x00 0x00] at h
  clear hlen
  revert op
  decide

/-- What stands at PC decodes alike in two states that agree on the instruction's own bytes (R87). -/
theorem decode_congr_of_byteAt {s s' : State} (h : ∀ k < instrLength (byteAt s 0), byteAt s' k = byteAt s k) :
    decode (byteAt s' 0) (byteAt s' 1) (byteAt s' 2) = decode (byteAt s 0) (byteAt s 1) (byteAt s 2) := by
  have hlen := instrLength_cases (byteAt s 0)
  have h0 : byteAt s' 0 = byteAt s 0 := h 0 (by omega)
  have h1 : instrLength (byteAt s 0) ≠ 1 → byteAt s' 1 = byteAt s 1 := fun hne => h 1 (by omega)
  have h2 : instrLength (byteAt s 0) = 3 → byteAt s' 2 = byteAt s 2 := fun he => h 2 (by omega)
  rw [decode_ignores, decode_ignores (byteAt s 0), h0, if_congr_branches (fun _ => rfl) h1,
    if_congr_branches h2 (fun _ => rfl)]

/-- The cells of the instruction at PC are among those a step reads (R57). -/
theorem byteAddr_mem_readAddrs {s : State} {k : Nat} (hk : k < instrLength (byteAt s 0)) :
    s.pc + BitVec.ofNat 16 k ∈ readAddrs s :=
  List.mem_append_left _ (List.mem_map_of_mem (List.mem_range.mpr hk))

/-- For LD A,(DE) the cell at DE is among those a step reads (R57). -/
theorem addrDE_mem_readAddrs {s : State} (h : byteAt s 0 = 0x1A) : addrDE s ∈ readAddrs s := by
  rw [readAddrs, if_pos h]
  exact List.mem_append_right _ (List.mem_singleton_self _)

section
variable {s : State} {m : Memory} (hread : ∀ a ∈ readAddrs s, readByte { s with mem := m } a = readByte s a)
include hread

theorem byteAt_withMem {k : Nat} (hk : k < instrLength (byteAt s 0)) : byteAt { s with mem := m } k = byteAt s k :=
  hread _ (byteAddr_mem_readAddrs hk)

theorem decode_withMem : decode (byteAt { s with mem := m } 0) (byteAt { s with mem := m } 1)
    (byteAt { s with mem := m } 2) = decode (byteAt s 0) (byteAt s 1) (byteAt s 2) :=
  decode_congr_of_byteAt fun _ hk => byteAt_withMem hread hk

theorem afterFetch_withMem : afterFetch { s with mem := m } = { afterFetch s with mem := m } := by
  have h0 : byteAt { s with mem := m } 0 = byteAt s 0 :=
    byteAt_withMem hread (by have := instrLength_cases (byteAt s 0); omega)
  rw [afterFetch, h0]; rfl

/-- Under a memory that agrees on the cells read, the same instruction executes, after the same fetches. -/
theorem step_withMem_of_decode_ok {i : Instr} (hd : decode (byteAt s 0) (byteAt s 1) (byteAt s 2) = .ok i) :
    step { s with mem := m } = .next (execState i { afterFetch s with mem := m }) := by
  rw [step_of_decode_ok ((decode_withMem hread).trans hd), afterFetch_withMem hread]

/-- Under a memory that agrees on the cells read, the same decode failure is reported, after the same fetches. -/
theorem step_withMem_of_decode_error {info : DecodeError}
    (hd : decode (byteAt s 0) (byteAt s 1) (byteAt s 2) = .error info) :
    step { s with mem := m } = .fault (.decodeError info { afterFetch s with mem := m }) := by
  rw [step_of_decode_error ((decode_withMem hread).trans hd), afterFetch_withMem hread]

/-- Only the memory of the state left can differ. -/
theorem execState_afterFetch_withMem {i : Instr} (hd : decode (byteAt s 0) (byteAt s 1) (byteAt s 2) = .ok i) :
    execState i { afterFetch s with mem := m } =
      { execState i (afterFetch s) with mem := (execState i { afterFetch s with mem := m }).mem } := by
  refine execState_withMem fun hi => hread _ (addrDE_mem_readAddrs ?_)
  subst hi
  exact opcode_of_decode_ldAatDE hd

end

/-- A cell reads alike after an instruction under either memory, or it keeps its value under both. -/
theorem readByte_execState_withMem (i : Instr) (s : State) (m : Memory) (a : Word) :
    readByte (execState i { s with mem := m }) a = readByte (execState i s) a ∨
      (readByte (execState i s) a = readByte s a ∧
        readByte (execState i { s with mem := m }) a = readByte { s with mem := m } a) := by
  by_cases ha : a ∈ storedAddrs i s
  · exact .inl (readByte_execState_withMem_of_stored m ha)
  · have ha' : a ∉ storedAddrs i { s with mem := m } := by rwa [storedAddrs_withMem]
    exact .inr ⟨memKept_execState i s a ha, memKept_execState i _ a ha'⟩

/-- Settles O41: the same instruction is fetched under both memories, it reads memory at DE alone, and what it stores
comes from the registers. -/
theorem stepDependsOnlyOnTheCellsItReads : Obligations.StepDependsOnlyOnTheCellsItReads := by
  intro s m hread
  refine ⟨fun t h => ?_, fun info t h => ?_⟩
  · obtain ⟨i, hd, rfl⟩ := step_next_inv h
    refine ⟨_, step_withMem_of_decode_ok hread hd, execState_afterFetch_withMem hread hd, fun a => ?_⟩
    obtain hsame | ⟨hkept, hkept'⟩ := readByte_execState_withMem i (afterFetch s) m a
    · exact ⟨fun _ => hsame, fun _ => hsame⟩
    · exact ⟨fun hne => absurd hkept hne, fun hne => absurd hkept' hne⟩
  · obtain ⟨hd, rfl⟩ := step_fault_inv h
    exact step_withMem_of_decode_error hread hd

/-! ## A store just ahead of PC -/

/-- An instruction of one byte that stores A at HL and keeps PC: where HL is the address after it, the next fetch reads
A (R68, R207). -/
theorem fetch_after_store_at_next {s : State} {i : Instr}
    (hd : decode (byteAt s 0) (byteAt s 1) (byteAt s 2) = .ok i) (hlen : i.length = 1)
    (hpc : ∀ u, (execState i u).pc = u.pc) (hstore : ∀ u, readByte (execState i u) (addrHL u) = u.a)
    (hHL : getPair s .hl = s.pc + 1) :
    ∃ t, step s = .next t ∧ t.pc = s.pc + 1 ∧ (fetch t).1 = s.a := by
  have hfetched : afterFetch s = setPC s (s.pc + 1) := by rw [afterFetch_of_decode hd, hlen]; rfl
  refine ⟨_, step_of_decode_ok hd, ?_, ?_⟩
  · rw [hpc, hfetched, setPC_pc]
  · have haddr : (execState i (afterFetch s)).pc = addrHL (afterFetch s) := by
      rw [hpc, hfetched]; exact hHL.symm
    rw [fetch, haddr]; exact hstore (afterFetch s)

/-- Settles O45: both instructions have one byte, store A at HL and keep PC. -/
theorem storeIsSeenByTheNextFetch : Obligations.StoreIsSeenByTheNextFetch := by
  rintro s (hop | hop) hHL
  · have hd : decode (byteAt s 0) (byteAt s 1) (byteAt s 2) = .ok .ldAtHLA := by rw [hop]; rfl
    exact fetch_after_store_at_next hd rfl (fun _ => rfl) (fun u => readByte_writeByte_same u _ _) hHL
  · have hd : decode (byteAt s 0) (byteAt s 1) (byteAt s 2) = .ok .ldAtHLdecA := by rw [hop]; rfl
    exact fetch_after_store_at_next hd rfl (fun _ => rfl) (fun u => readByte_writeByte_same u _ _) hHL

end Sys2Proof.Machine
end

section
/-! PROOFS of the family 30_encoding.md. First the decoder against the encoder and against the dispatch table, then what
`fetch` reads in the terms of `byteAt`, then the bytes of a table word placed at PC. -/

namespace Sys2Proof

/-! ## The decoder and the encoder -/

/-- A word operand is rejoined from its two bytes (R53, R85); every other operand is decoded as it stands. -/
theorem decodeBytes_encode (i : Instr) (rest : List Byte) : decodeBytes (encode i ++ rest) = .ok i := by
  cases i with
  | ldDEd16 w => exact congrArg (fun v => Except.ok (Instr.ldDEd16 v)) (joinBytes_hi8_lo8 w)
  | ldHLd16 w => exact congrArg (fun v => Except.ok (Instr.ldHLd16 v)) (joinBytes_hi8_lo8 w)
  | ldSPd16 w => exact congrArg (fun v => Except.ok (Instr.ldSPd16 v)) (joinBytes_hi8_lo8 w)
  | callNN w => exact congrArg (fun v => Except.ok (Instr.callNN v)) (joinBytes_hi8_lo8 w)
  | _ => rfl

theorem encode_of_decodeCB {sub : Byte} {i : Instr} (h : decodeCB sub = .ok i) : encode i = [prefixByte, sub] := by
  revert h
  fun_cases decodeCB sub with
  | case1 | case2 => subst_vars; rintro ⟨⟩; rfl
  | case3 => nofun

/-- Along the branches of `decode`: 5, 9, 10 and 18 are the four with a word operand, 17 is 0xCB, 21 refuses. -/
theorem encode_of_decode {op b1 b2 : Byte} {i : Instr} (h : decode op b1 b2 = .ok i) :
    encode i = [op, b1, b2].take i.length := by
  have hlen := length_of_decode h
  revert h
  fun_cases decode op b1 b2 with
  | case5 | case9 | case10 | case18 =>
    subst_vars; rintro ⟨⟩
    rw [encode, lo8_joinBytes, hi8_joinBytes]; rfl
  | case17 =>
    subst_vars; intro h
    rw [encode_of_decodeCB h, ← hlen]; rfl
  | case21 => nofun
  | _ => subst_vars; rintro ⟨⟩; rfl

/-! ## The decoder and the dispatch table -/

/-- The 20 first bytes of the dispatch table (R90; `rowSelected_iff`). -/
def firstBytes : List Byte :=
  [0x00, 0x06, 0x0C, 0x0E, 0x11, 0x17, 0x1A, 0x20, 0x21, 0x31, 0x32, 0x3E, 0x4F, 0x77, 0xAF, 0xC5, prefixByte, 0xCD,
    0xE0, 0xE2]

/-- An unrecognised first byte is fetched alone (R90). -/
theorem instrLength_of_not_mem_firstBytes {op : Byte} (h : op ∉ firstBytes) : instrLength op = 1 := by
  have h2 : [0x06, 0x0E, 0x20, 0x3E, 0xE0, prefixByte] ⊆ firstBytes := by decide
  have h3 : [0x11, 0x21, 0x31, 0xCD] ⊆ firstBytes := by decide
  rw [instrLength, if_neg fun hop => h (h2 hop), if_neg fun hop => h (h3 hop)]

/-- Every branch of `decode` but the last is taken at one of the first bytes. -/
theorem decode_of_not_mem_firstBytes {op : Byte} (h : op ∉ firstBytes) (b1 b2 : Byte) :
    decode op b1 b2 = .error (.unknown op) := by
  fun_cases decode op b1 b2 with
  | case21 => rfl
  | _ => subst_vars; exact absurd (by decide) h

theorem decode_prefixByte_of_ne {sub : Byte} (h11 : sub ≠ 0x11) (h7C : sub ≠ 0x7C) (b2 : Byte) :
    decode prefixByte sub b2 = .error (.unknownCB sub) := by
  change decodeCB sub = _
  rw [decodeCB, if_neg h11, if_neg h7C]

/-- A row selects two bytes when the first is recognised and, after 0xCB, the second too (R90, R91). -/
theorem rowSelected_iff (op b1 : Byte) :
    rowSelected [op, b1] = true ↔ op ∈ firstBytes ∧ (op = prefixByte → b1 = 0x11 ∨ b1 = 0x7C) := by
  by_cases hp : op = prefixByte
  · subst hp
    simp [rowSelected, opcodeTable, plainRows, prefixedRows, Row.selects, firstBytes, prefixByte]
  · have hCB : op ≠ 203#8 := hp
    simp [rowSelected, opcodeTable, plainRows, prefixedRows, Row.selects, firstBytes, hp, hCB]

/-- Along the branches of `decode`: 17 is 0xCB, 21 refuses; the others answer an instruction outright. -/
theorem decode_of_rowSelected {op b1 : Byte} (h : rowSelected [op, b1] = true) (b2 : Byte) :
    ∃ i, decode op b1 b2 = .ok i := by
  obtain ⟨hop, hsub⟩ := (rowSelected_iff op b1).mp h
  fun_cases decode op b1 b2 with
  | case17 =>
    obtain rfl | rfl := hsub ‹_›
    · exact ⟨.rlC, rfl⟩
    · exact ⟨.bit7H, rfl⟩
  | case21 => simp only [firstBytes, List.mem_cons, List.not_mem_nil, or_self, *] at hop
  | _ => exact ⟨_, rfl⟩

/-- Everything the decoder can answer (R82, R90 to R92). -/
theorem decode_cases (op b1 b2 : Byte) :
    (rowSelected [op, b1] = true ∧ ∃ i, decode op b1 b2 = .ok i) ∨
    (op ∉ firstBytes ∧ decode op b1 b2 = .error (.unknown op)) ∨
    (op = prefixByte ∧ b1 ≠ 0x11 ∧ b1 ≠ 0x7C ∧ decode op b1 b2 = .error (.unknownCB b1)) := by
  by_cases hrow : rowSelected [op, b1] = true
  · exact .inl ⟨hrow, decode_of_rowSelected hrow b2⟩
  · rw [rowSelected_iff] at hrow
    by_cases hop : op ∈ firstBytes
    · obtain ⟨rfl, hsub⟩ : op = prefixByte ∧ ¬(b1 = 0x11 ∨ b1 = 0x7C) :=
        Classical.not_imp.mp fun himp => hrow ⟨hop, himp⟩
      obtain ⟨h11, h7C⟩ := not_or.mp hsub
      exact .inr (.inr ⟨rfl, h11, h7C, decode_prefixByte_of_ne h11 h7C b2⟩)
    · exact .inr (.inl ⟨hop, decode_of_not_mem_firstBytes hop b1 b2⟩)

/-- Of the 256 byte values, those outside a list without repetitions: the values in it are a permutation of it. -/
theorem length_filter_not_mem {l : List Byte} (hl : l.Nodup) :
    ((List.range 256).filter fun n => decide (BitVec.ofNat 8 n ∉ l)).length = 256 - l.length := by
  have hnodup : ((List.range 256).map (BitVec.ofNat 8)).Nodup := by
    refine List.nodup_range.map_on fun m hm n hn h => ?_
    have := congrArg BitVec.toNat h
    simp only [List.mem_range, BitVec.toNat_ofNat] at hm hn this
    omega
  have hmem (b : Byte) : b ∈ (List.range 256).map (BitVec.ofNat 8) :=
    List.mem_map.mpr ⟨b.toNat, List.mem_range.mpr b.isLt, by simp⟩
  have hperm : (((List.range 256).map (BitVec.ofNat 8)).filter fun b => decide (b ∈ l)).Perm l :=
    (List.perm_ext_iff_of_nodup (hnodup.filter _) hl).mpr fun b => by simp [hmem]
  have hin : (List.range 256).countP (fun n => decide (BitVec.ofNat 8 n ∈ l)) = l.length := by
    rw [← hperm.length_eq, ← List.countP_eq_length_filter, List.countP_map]; rfl
  have hsplit : 256 = (List.range 256).countP (fun n => decide (BitVec.ofNat 8 n ∈ l)) +
      (List.range 256).countP (fun n => decide (BitVec.ofNat 8 n ∉ l)) := by
    simpa using (List.range 256).length_eq_countP_add_countP fun n => decide (BitVec.ofNat 8 n ∈ l)
  rw [← List.countP_eq_length_filter]
  omega

namespace Machine

/-- Settles O3: by the constructors of the instruction. -/
theorem decodeOfEncodeIsTheInstruction : Obligations.DecodeOfEncodeIsTheInstruction :=
  fun i rest _ => decodeBytes_encode i rest

/-- Settles O4: by the branches of the decoder. -/
theorem encodeOfDecodeIsTheBytes : Obligations.EncodeOfDecodeIsTheBytes :=
  fun _ _ _ _ => encode_of_decode

/-! ## Fetch -/

theorem fetch_fst (s : State) : (fetch s).1 = byteAt s 0 := (byteAt_zero s).symm

theorem fetch_fetch_fst (s : State) : (fetch (fetch s).2).1 = byteAt s 1 := rfl

theorem fetch_fetch_snd (s : State) : (fetch (fetch s).2).2 = setPC s (s.pc + 2) :=
  congrArg (setPC s) (pc_add_succ s.pc 1)

theorem afterFetch_of_not_mem_firstBytes {s : State} (h : byteAt s 0 ∉ firstBytes) : afterFetch s = (fetch s).2 := by
  rw [afterFetch, instrLength_of_not_mem_firstBytes h]; rfl

theorem afterFetch_of_prefixByte {s : State} (h : byteAt s 0 = prefixByte) : afterFetch s = (fetch (fetch s).2).2 := by
  rw [afterFetch, h, fetch_fetch_snd]; rfl

/-- Settles O10: the word is its two bytes joined, and two increments are one by 2. -/
theorem fetchReadsAtPCAndAdvances : Obligations.FetchReadsAtPCAndAdvances := by
  refine fun s => ⟨rfl, rfl, ?_, fetch_fetch_snd s⟩
  have hword : (fetch16 s).1 = joinBytes (readByte s (s.pc + 1)) (readByte s s.pc) := rfl
  rw [hword, joinBytes_toNat]
  omega

/-! ## What a step does with the bytes at PC -/

theorem step_eq_exec_of_decode {s : State} {i : Instr} (h : decode (byteAt s 0) (byteAt s 1) (byteAt s 2) = .ok i) :
    step s = exec i { s with pc := s.pc + BitVec.ofNat 16 i.length } := by
  rw [step_of_decode_ok h, afterFetch_of_decode h]
  exact (exec_eq_next i _).symm

/-- Settles O1: PC is past the bytes fetched, which are as many as the instruction has. -/
theorem stepExecutesTheDecodedInstruction : Obligations.StepExecutesTheDecodedInstruction :=
  fun _ _ hd _ => step_eq_exec_of_decode hd

/-- Settles O2: by evaluation of the decoder. -/
theorem exampleWordsDecode : Obligations.ExampleWordsDecode :=
  ⟨rfl, rfl, rfl, rfl, rfl, rfl, rfl, rfl, rfl, rfl, rfl, rfl, rfl, rfl⟩

/-- Settles O5: what the decoder can answer (`decode_cases`) is what the step reports. -/
theorem unrecognisedFirstByteFailsByName : Obligations.UnrecognisedFirstByteFailsByName := by
  refine ⟨fun s hop => ?_, fun s t op h => ?_, length_filter_not_mem (l := firstBytes) (by decide)⟩
  · rw [fetch_fst] at hop ⊢
    rw [step_of_decode_error (decode_of_not_mem_firstBytes hop _ _), afterFetch_of_not_mem_firstBytes hop]
  · obtain ⟨hd, -⟩ := step_fault_inv h
    obtain ⟨-, i, hok⟩ | ⟨hop, herr⟩ | ⟨-, -, -, herr⟩ := decode_cases (byteAt s 0) (byteAt s 1) (byteAt s 2)
    · cases hok.symm.trans hd
    · cases herr.symm.trans hd
      exact ⟨fetch_fst s, hop⟩
    · cases herr.symm.trans hd

/-- Settles O6: what the decoder can answer (`decode_cases`) is what the step reports. -/
theorem unrecognisedSubOpcodeFailsByName : Obligations.UnrecognisedSubOpcodeFailsByName := by
  refine ⟨fun s hop h11 h7C => ?_, fun s t sub h => ?_,
    by simpa using length_filter_not_mem (l := [0x11, 0x7C]) (by decide)⟩
  · rw [fetch_fst] at hop
    rw [fetch_fetch_fst] at h11 h7C ⊢
    have hd : decode (byteAt s 0) (byteAt s 1) (byteAt s 2) = .error (.unknownCB (byteAt s 1)) := by
      rw [hop]; exact decode_prefixByte_of_ne h11 h7C _
    rw [step_of_decode_error hd, afterFetch_of_prefixByte hop]
  · obtain ⟨hd, -⟩ := step_fault_inv h
    obtain ⟨-, i, hok⟩ | ⟨-, herr⟩ | ⟨hop, h11, h7C, herr⟩ := decode_cases (byteAt s 0) (byteAt s 1) (byteAt s 2)
    · cases hok.symm.trans hd
    · cases herr.symm.trans hd
    · cases herr.symm.trans hd
      exact ⟨(fetch_fst s).trans hop, fetch_fetch_fst s, h11, h7C⟩

/-- Settles O8: the decoder answers an instruction where a row is selected and one of its two failures elsewhere. -/
theorem stepExecutesExactlyTheTable : Obligations.StepExecutesExactlyTheTable := by
  refine fun s => ⟨fun hrow => ?_, fun hrow => ?_⟩
  · obtain ⟨i, hok⟩ := decode_of_rowSelected hrow (byteAt s 2)
    exact ⟨_, step_of_decode_ok hok⟩
  · obtain ⟨hsel, -⟩ | ⟨-, herr⟩ | ⟨-, -, -, herr⟩ := decode_cases (byteAt s 0) (byteAt s 1) (byteAt s 2)
    · cases hrow.symm.trans hsel
    · exact ⟨_, _, step_of_decode_error herr⟩
    · exact ⟨_, _, step_of_decode_error herr⟩

/-! ## A table word placed at PC -/

theorem addr_add_one_add (a : Word) (k : Nat) : a + 1 + BitVec.ofNat 16 k = a + BitVec.ofNat 16 (k + 1) :=
  (add_right_comm a 1 _).trans (pc_add_succ a k)

theorem addr_ne_add_succ (a : Word) {k : Nat} (hk : k + 1 < 2 ^ 16) : a ≠ a + BitVec.ofNat 16 (k + 1) := by
  rw [ne_eq, left_eq_add, ← BitVec.toNat_inj, BitVec.toNat_ofNat, Nat.mod_eq_of_lt hk]
  exact Nat.succ_ne_zero k

theorem writeBytes_pc (bs : List Byte) (s : State) (a : Word) : (writeBytes s a bs).pc = s.pc := by
  induction bs generalizing s a with
  | nil => rfl
  | cons v rest ih => exact ih (writeByte s a v) (a + 1)

/-- Bytes written at successive addresses leave every other cell as it was. -/
theorem readByte_writeBytes_of_forall_ne {bs : List Byte} {s : State} {a b : Word}
    (h : ∀ k < bs.length, b ≠ a + BitVec.ofNat 16 k) : readByte (writeBytes s a bs) b = readByte s b := by
  induction bs generalizing s a with
  | nil => rfl
  | cons v rest ih =>
    have h0 : b ≠ a := by simpa using h 0 (Nat.succ_pos _)
    rw [writeBytes, ih fun k hk => addr_add_one_add a k ▸ h (k + 1) (Nat.succ_lt_succ hk),
      readByte_writeByte_ne _ _ _ _ h0]

/-- No byte is overwritten by a later one, as long as they do not go round the whole memory. -/
theorem readByte_writeBytes_getElem {bs : List Byte} (hlen : bs.length ≤ 2 ^ 16) {s : State} {a : Word} {k : Nat}
    (hk : k < bs.length) : readByte (writeBytes s a bs) (a + BitVec.ofNat 16 k) = bs[k] := by
  induction bs generalizing s a k with
  | nil => cases hk
  | cons v rest ih =>
    rw [List.length_cons] at hlen hk
    cases k with
    | zero =>
      have hlater (j : Nat) (hj : j < rest.length) : a ≠ a + 1 + BitVec.ofNat 16 j :=
        addr_add_one_add a j ▸ addr_ne_add_succ a (by omega)
      rw [BitVec.add_zero, writeBytes, readByte_writeBytes_of_forall_ne hlater]
      exact readByte_writeByte_same s a v
    | succ j =>
      rw [writeBytes, ← addr_add_one_add]
      exact ih (by omega) (by omega)

theorem byteAt_withFetchWord (s : State) (nbits w : Nat) {k : Nat} (hk : k < 3) :
    byteAt (s.withFetchWord nbits w) k = (tableBytes nbits w)[k] := by
  have hlen : (tableBytes nbits w).length ≤ 2 ^ 16 := by simp [tableBytes]
  rw [byteAt, State.withFetchWord, writeBytes_pc]
  exact readByte_writeBytes_getElem hlen hk

theorem decode_of_decodeTableWord {nbits w : Nat} {i : Instr} (h : decodeTableWord nbits w = some i) :
    decode (tableByte nbits w 0) (tableByte nbits w 1) (tableByte nbits w 2) = .ok i := by
  unfold decodeTableWord at h
  split at h
  · cases h; assumption
  · cases h

/-- Settles O49: the three bytes at PC are those of the word, and storing them keeps PC. -/
theorem placedTableWordIsTheOneThatRuns : Obligations.PlacedTableWordIsTheOneThatRuns := by
  intro s nbits w i h
  have hpc : (s.withFetchWord nbits w).pc = s.pc := writeBytes_pc _ s s.pc
  rw [← hpc]
  apply step_eq_exec_of_decode
  rw [byteAt_withFetchWord s nbits w (k := 0) (by decide), byteAt_withFetchWord s nbits w (k := 1) (by decide),
    byteAt_withFetchWord s nbits w (k := 2) (by decide)]
  exact decode_of_decodeTableWord h

end Machine

end Sys2Proof
end

section
/-! PROOFS of the family 40_loads_8bit.md. First what the statement about any instruction needs: the whole frame of the
state it leaves, and the step of its opcode in the terms of `fetch`. -/

namespace Sys2Proof.Machine

/-- The register, flag and memory tables together (R21, R32, R57). -/
theorem keptBut_execState (i : Instr) (s : State) :
    KeptBut (writtenRegs i) (writtenFlags i) (storedAddrs i s) s (execState i s) :=
  ⟨regsKept_execState i s, flagsKept_execState i s, memKept_execState i s⟩

/-- An opcode that stands for a one-byte instruction: the step executes it after the one fetch (R83, R87). -/
theorem step_eq_exec_fetch {s : State} {op : Byte} {i : Instr} (hop : (fetch s).1 = op)
    (hdecode : ∀ b1 b2, decode op b1 b2 = .ok i) (hlen : i.length = 1) : step s = exec i (fetch s).2 := by
  rw [fetch_fst] at hop
  rw [step_eq_exec_of_decode (hop ▸ hdecode _ _), hlen]; rfl

/-- An opcode whose instruction has one operand byte: the byte fetched second is the operand, and the step executes the
instruction after both fetches (R83, R85, R87). -/
theorem step_eq_exec_fetch_fetch {s : State} {op : Byte} {i : Byte → Instr} (hop : (fetch s).1 = op)
    (hdecode : ∀ b1 b2, decode op b1 b2 = .ok (i b1)) (hlen : ∀ b, (i b).length = 2) :
    step s = exec (i (fetch (fetch s).2).1) (fetch (fetch s).2).2 := by
  rw [fetch_fst] at hop
  rw [fetch_fetch_fst, fetch_fetch_snd, step_eq_exec_of_decode (hop ▸ hdecode _ _), hlen]; rfl

/-! ## Stores of A -/

/-- Settles O15: the decrement writes H and L after the store, so the cell keeps A and the pair holds HL - 1. -/
theorem storeAThroughHLThenDecrement : Obligations.StoreAThroughHLThenDecrement :=
  ⟨fun s => ⟨_, exec_eq_next .ldAtHLdecA s, readByte_writeByte_same s _ _,
      getPair_setPair_same (writeByte s (addrHL s) s.a) .hl _, rfl, rfl, rfl, keptBut_execState .ldAtHLdecA s⟩,
    fun _ hop => step_eq_exec_fetch hop (fun _ _ => rfl) rfl⟩

/-- Settles O16: both are one store of A, at the high-page address of the operand or of C. -/
theorem storeAToTheHighPage : Obligations.StoreAToTheHighPage :=
  ⟨fun s n => ⟨_, exec_eq_next (.ldhAtNA n) s, addrHighPage_eq_joinBytes n, readByte_writeByte_same s _ _, rfl, rfl,
      rfl, keptBut_execState (.ldhAtNA n) s⟩,
    fun s => ⟨_, exec_eq_next .ldAtCA s, addrHighPage_eq_joinBytes s.c, readByte_writeByte_same s _ _, rfl, rfl, rfl,
      keptBut_execState .ldAtCA s⟩,
    fun _ hop => step_eq_exec_fetch_fetch hop (fun _ _ => rfl) fun _ => rfl,
    fun _ hop => step_eq_exec_fetch hop (fun _ _ => rfl) rfl⟩

/-- Settles O14: one store of A, at HL. -/
theorem storeAThroughHL : Obligations.StoreAThroughHL :=
  ⟨fun s => ⟨_, exec_eq_next .ldAtHLA s, readByte_writeByte_same s _ _, rfl, rfl, rfl, keptBut_execState .ldAtHLA s⟩,
    fun _ hop => step_eq_exec_fetch hop (fun _ _ => rfl) rfl⟩

/-! ## Loads of a register -/

/-- Settles O11: each sets one register to the operand; B is the high and C the low byte of BC. -/
theorem loadImmediateByte : Obligations.LoadImmediateByte :=
  ⟨fun s d8 => ⟨_, exec_eq_next (.ldBd8 d8) s, rfl, getPair_setReg_high s .bc d8, rfl, rfl, rfl,
      keptBut_execState (.ldBd8 d8) s⟩,
    fun s d8 => ⟨_, exec_eq_next (.ldCd8 d8) s, rfl, getPair_setReg_low s .bc d8, rfl, rfl, rfl,
      keptBut_execState (.ldCd8 d8) s⟩,
    fun s d8 => ⟨_, exec_eq_next (.ldAd8 d8) s, rfl, rfl, rfl, rfl, keptBut_execState (.ldAd8 d8) s⟩,
    fun _ hop => step_eq_exec_fetch_fetch hop (fun _ _ => rfl) fun _ => rfl,
    fun _ hop => step_eq_exec_fetch_fetch hop (fun _ _ => rfl) fun _ => rfl,
    fun _ hop => step_eq_exec_fetch_fetch hop (fun _ _ => rfl) fun _ => rfl⟩

/-- Settles O12: C is set to A, and it is the low byte of BC. -/
theorem loadCFromA : Obligations.LoadCFromA :=
  ⟨fun s => ⟨_, exec_eq_next .ldCA s, rfl, getPair_setReg_low s .bc s.a, rfl, rfl, rfl, keptBut_execState .ldCA s⟩,
    fun _ hop => step_eq_exec_fetch hop (fun _ _ => rfl) rfl⟩

/-- Settles O13: A is set to the byte at DE, and nothing is stored. -/
theorem loadAThroughDE : Obligations.LoadAThroughDE :=
  ⟨fun s => ⟨_, exec_eq_next .ldAatDE s, rfl, rfl, rfl, rfl, keptBut_execState .ldAatDE s⟩,
    fun _ hop => step_eq_exec_fetch hop (fun _ _ => rfl) rfl⟩

end Sys2Proof.Machine
end

section
/-! PROOFS of the family 41_loads_16bit_stack.md. First where a push puts each byte of its word, and the step of an opcode
with a word operand in the terms of `fetch16`. -/

namespace Sys2Proof.Machine

/-! ## The two bytes of a pushed word -/

/-- The low byte is written last, so its cell holds it whatever SP is (R54, R133). -/
theorem readByte_pushWord_low (s : State) (w : Word) : readByte (pushWord s w) (s.sp - 2) = lo8 w := by
  rw [readByte_pushWord, if_pos rfl]

/-- SP-1 and SP-2 differ modulo 2^16, so the low byte does not overwrite the high one (R54, R133, decision D4). -/
theorem readByte_pushWord_high (s : State) (w : Word) : readByte (pushWord s w) (s.sp - 1) = hi8 w := by
  have hne : s.sp - 1 ≠ s.sp - 2 := by bv_omega
  rw [readByte_pushWord, if_neg hne, if_pos rfl]

/-- Settles O18: the pushed word is BC, whose high byte is B and whose low byte is C. -/
theorem pushBCStoresBothBytes : Obligations.PushBCStoresBothBytes :=
  ⟨fun s => ⟨_, exec_eq_next .pushBC s, (readByte_pushWord_high s _).trans (hi8_joinBytes s.b s.c),
      (readByte_pushWord_low s _).trans (lo8_joinBytes s.b s.c), execState_sp .pushBC s, rfl, rfl,
      keptBut_execState .pushBC s⟩,
    fun _ hop => step_eq_exec_fetch hop (fun _ _ => rfl) rfl⟩

/-! ## Loads of a word -/

/-- The operand word is the second and third byte of the instruction, low byte first (R81, R85, decision D6). -/
theorem fetch16_fetch_fst (s : State) : (fetch16 (fetch s).2).1 = joinBytes (byteAt s 2) (byteAt s 1) :=
  congrArg (fun a => joinBytes (readByte s a) (byteAt s 1)) (pc_add_succ s.pc 1)

theorem fetch16_fetch_snd (s : State) : (fetch16 (fetch s).2).2 = setPC s (s.pc + 3) :=
  (fetch_fetch_snd (fetch s).2).trans (congrArg (setPC s) (addr_add_one_add s.pc 2))

/-- An opcode whose instruction has a word operand: the word fetched after it is the operand, and the step executes the
instruction after the three fetches (R83, R85, R87). -/
theorem step_eq_exec_fetch16 {s : State} {op : Byte} {i : Word → Instr} (hop : (fetch s).1 = op)
    (hdecode : ∀ b1 b2, decode op b1 b2 = .ok (i (joinBytes b2 b1))) (hlen : ∀ w, (i w).length = 3) :
    step s = exec (i (fetch16 (fetch s).2).1) (fetch16 (fetch s).2).2 := by
  rw [fetch_fst] at hop
  rw [fetch16_fetch_fst, fetch16_fetch_snd, step_eq_exec_of_decode (hop ▸ hdecode _ _), hlen]; rfl

/-- Settles O17: DE and HL take the word as its high and low byte, SP takes it whole. -/
theorem loadImmediateWord : Obligations.LoadImmediateWord :=
  ⟨fun s d16 => ⟨_, exec_eq_next (.ldDEd16 d16) s, rfl, rfl, getPair_setPair_same s .de d16, rfl, rfl, rfl,
      keptBut_execState (.ldDEd16 d16) s⟩,
    fun s d16 => ⟨_, exec_eq_next (.ldHLd16 d16) s, rfl, rfl, getPair_setPair_same s .hl d16, rfl, rfl, rfl,
      keptBut_execState (.ldHLd16 d16) s⟩,
    fun s d16 => ⟨_, exec_eq_next (.ldSPd16 d16) s, rfl, rfl, rfl, keptBut_execState (.ldSPd16 d16) s⟩,
    fun _ hop => step_eq_exec_fetch16 hop (fun _ _ => rfl) fun _ => rfl,
    fun _ hop => step_eq_exec_fetch16 hop (fun _ _ => rfl) fun _ => rfl,
    fun _ hop => step_eq_exec_fetch16 hop (fun _ _ => rfl) fun _ => rfl⟩

end Sys2Proof.Machine
end

section
/-! PROOFS of the family 42_alu.md. First what the flag table says of a single flag, and that F of a valid state is told
from its four flags; then the instructions, and N along a run. -/

namespace Sys2Proof.Machine

/-! ## The flags of a state -/

theorem FlagsKept.getFlag_eq {changed : List Flag} {s t : State} (h : FlagsKept changed s t) {x : Flag}
    (hx : x ∉ changed) : getFlag t x = getFlag s x :=
  h (flagBit x) fun _ hy e => hx (flagBit_injective e ▸ hy)

/-- Bits 7..4 of F are the flags' bits (R29). -/
theorem exists_flagBit_eq {k : Nat} (h4 : 4 ≤ k) (h8 : k < 8) : ∃ x, flagBit x = k := by
  obtain rfl | rfl | rfl | rfl : k = 4 ∨ k = 5 ∨ k = 6 ∨ k = 7 := by omega
  · exact ⟨.c, rfl⟩
  · exact ⟨.h, rfl⟩
  · exact ⟨.n, rfl⟩
  · exact ⟨.z, rfl⟩

/-- Valid states whose flags agree have the same F (R29, R30). -/
theorem State.f_eq_of_valid {s t : State} (hs : s.valid = true) (ht : t.valid = true)
    (h : ∀ x, getFlag s x = getFlag t x) : s.f = t.f := by
  refine BitVec.eq_of_getLsbD_eq fun k h8 => ?_
  by_cases h4 : k < 4
  · rw [(State.valid_iff s).mp hs k h4, (State.valid_iff t).mp ht k h4]
  · obtain ⟨x, rfl⟩ := exists_flagBit_eq (Nat.le_of_not_lt h4) h8
    exact h x

/-! ## INC C and XOR A -/

/-- Settles O20: C, Z and H are what `inc8` yields, and the carry flag is outside INC C's row of the flag table. -/
theorem incrementC : Obligations.IncrementC := by
  refine ⟨fun s => ⟨_, exec_eq_next .incC s, inc8_toNat s.c, ?_, ?_, ?_, ?_, rfl, rfl, rfl,
    keptBut_execState .incC s⟩, fun _ hop => step_eq_exec_fetch hop (fun _ _ => rfl) rfl⟩
  · rw [execState, getFlag_setCycles, getFlag_setZNH]; exact inc8_zero s.c
  · rw [execState, getFlag_setCycles, getFlag_setZNH]
  · rw [execState, getFlag_setCycles, getFlag_setZNH]; exact inc8_half s.c
  · exact (flagsKept_execState .incC s).getFlag_eq (by decide)

/-- The flags after XOR A (R142) are those of F = 0x80. -/
theorem getFlag_execState_xorA (s : State) (x : Flag) :
    getFlag (execState .xorA s) x = getFlag { State.reset with f := 0x80 } x := by
  rw [execState, getFlag_setCycles, getFlag_setZNHC]
  cases x <;> rfl

/-- Settles O21: all four flags are written, so in a valid state they determine F. -/
theorem xorAClearsA : Obligations.XorAClearsA := by
  refine ⟨fun s => ⟨_, exec_eq_next .xorA s, rfl, getFlag_execState_xorA s .z, getFlag_execState_xorA s .n,
    getFlag_execState_xorA s .h, getFlag_execState_xorA s .c, fun hs => ?_, rfl, rfl, rfl,
    keptBut_execState .xorA s⟩, fun _ hop => step_eq_exec_fetch hop (fun _ _ => rfl) rfl⟩
  have hvalid : (execState .xorA s).valid = true := (flagsKept_execState .xorA s).valid hs
  exact State.f_eq_of_valid (t := { State.reset with f := 0x80 }) hvalid rfl (getFlag_execState_xorA s)

/-! ## N along a run -/

/-- The five instructions that write N write 0, and the others keep it (R144). -/
theorem getFlag_n_execState (i : Instr) {s : State} (h : getFlag s .n = false) :
    getFlag (execState i s) .n = false := by
  cases i with
  | incC | bit7H => rw [execState, getFlag_setCycles, getFlag_setZNH]
  | rla | xorA | rlC => rw [execState, getFlag_setCycles, getFlag_setZNHC]
  | _ => exact ((flagsKept_execState _ s).getFlag_eq List.not_mem_nil).trans h

/-- Fetching changes PC alone. -/
theorem getFlag_afterFetch (s : State) (x : Flag) : getFlag (afterFetch s) x = getFlag s x := rfl

theorem getFlag_n_of_step_next {s t : State} (h : step s = .next t) (hs : getFlag s .n = false) :
    getFlag t .n = false := by
  obtain ⟨i, -, rfl⟩ := step_next_inv h
  exact getFlag_n_execState i ((getFlag_afterFetch s .n).trans hs)

theorem getFlag_n_of_step_fault {s t : State} {info : DecodeError} (h : step s = .fault (.decodeError info t))
    (hs : getFlag s .n = false) : getFlag t .n = false := by
  obtain ⟨-, rfl⟩ := step_fault_inv h
  exact (getFlag_afterFetch s .n).trans hs

/-- Settles O37: by induction on the number of steps, each of which keeps N clear. -/
theorem subtractFlagIsNeverSet : Obligations.SubtractFlagIsNeverSet :=
  fun _ _ _ _ hs hrun =>
    drive_keeps (P := fun s => getFlag s .n = false) getFlag_n_of_step_next getFlag_n_of_step_fault hrun hs

end Sys2Proof.Machine
end

section
/-! PROOFS of the family 43_rotates_bits.md. First the step of a prefixed instruction in the terms of `fetch`; then what
each instruction leaves; last the 9-bit rotation that `rl8` is, and its iteration. -/

namespace Sys2Proof.Machine

/-- A sub-opcode that stands for an instruction: the step executes it after the fetches of 0xCB and of the
sub-opcode (R83, R87, R88). -/
theorem step_eq_exec_of_prefixed {s : State} {sub : Byte} {i : Instr} (hop : (fetch s).1 = prefixByte)
    (hsub : (fetch (fetch s).2).1 = sub) (hdecode : decodeCB sub = .ok i) :
    step s = exec i (fetch (fetch s).2).2 := by
  rw [fetch_fst] at hop
  have hd : decode (byteAt s 0) (byteAt s 1) (byteAt s 2) = .ok i := by
    rw [hop, ← fetch_fetch_fst, hsub]; exact hdecode
  rw [step_of_decode_ok hd, afterFetch_of_prefixByte hop, exec_eq_next]

/-! ## RLA, RL C and BIT 7,H -/

/-- Settles O22: A and the carry flag are what `rl8` yields, and Z is written 0. -/
theorem rotateALeftThroughCarry : Obligations.RotateALeftThroughCarry := by
  refine ⟨fun s => ⟨_, exec_eq_next .rla s, rl8_toNat s.a _, ?_, ?_, ?_, ?_, rfl, rfl, rfl,
    keptBut_execState .rla s⟩, fun _ hop => step_eq_exec_fetch hop (fun _ _ => rfl) rfl⟩
  all_goals rw [execState, getFlag_setCycles, getFlag_setZNHC]
  exact rl8_cout s.a _

/-- Settles O23: C and the carry flag are what `rl8` yields, and Z is the comparison of that byte with 0. -/
theorem rotateCLeftThroughCarry : Obligations.RotateCLeftThroughCarry := by
  refine ⟨fun s => ⟨_, exec_eq_next .rlC s, rl8_toNat s.c _, ?_, ?_, ?_, ?_, rfl, rfl, rfl,
    keptBut_execState .rlC s⟩, fun _ hop hsub => step_eq_exec_of_prefixed hop hsub rfl⟩
  all_goals rw [execState, getFlag_setCycles, getFlag_setZNHC]
  · exact beq_iff_eq
  · exact rl8_cout s.c _

/-- The top bit of a byte is clear where the byte is below 128 (R153). -/
theorem not_getLsbD_seven_iff (x : Byte) : (!x.getLsbD 7) = true ↔ x.toNat < 128 := by
  have hmsb : x.getLsbD 7 = decide (128 ≤ x.toNat) := BitVec.msb_eq_decide x
  rw [hmsb, Bool.not_eq_true', decide_eq_false_iff_not, Nat.not_le]

/-- A word is below 0x8000 where its high byte is below 128 (R22, R153). -/
theorem joinBytes_lt_iff (hi lo : Byte) : (joinBytes hi lo).toNat < 0x8000 ↔ hi.toNat < 128 := by
  rw [joinBytes_toNat]
  have := lo.isLt
  omega

/-- Z after BIT 7,H is the complement of the tested bit (R153). -/
theorem getFlag_z_execState_bit7H (s : State) : getFlag (execState .bit7H s) .z = true ↔ s.h.toNat < 128 := by
  rw [execState, getFlag_setCycles, getFlag_setZNH]
  exact not_getLsbD_seven_iff s.h

/-- Settles O25: Z is the complement of the top bit of H, the high byte of HL, and `setZNH` keeps the carry flag. -/
theorem testBit7OfH : Obligations.TestBit7OfH := by
  refine ⟨fun s => ⟨_, exec_eq_next .bit7H s, getFlag_z_execState_bit7H s,
    (getFlag_z_execState_bit7H s).trans (joinBytes_lt_iff s.h s.l).symm, ?_, ?_, ?_, rfl, rfl, rfl,
    keptBut_execState .bit7H s⟩, fun _ hop hsub => step_eq_exec_of_prefixed hop hsub rfl⟩
  all_goals rw [execState, getFlag_setCycles, getFlag_setZNH]

/-! ## Nine rotations -/

theorem rotateLeft_zero {w : Nat} (x : BitVec w) : x.rotateLeft 0 = x :=
  BitVec.eq_of_getMsbD_eq fun k hk => by simp [BitVec.getMsbD_rotateLeft, Nat.mod_eq_of_lt hk, hk]

theorem rotateLeft_width {w : Nat} (x : BitVec w) : x.rotateLeft w = x := by
  rw [← BitVec.rotateLeft_mod_eq_rotateLeft, Nat.mod_self, rotateLeft_zero]

/-- Rotations add up: bit `k` from the top is bit `n + 1 + k` from the top before, modulo the width. -/
theorem rotateLeft_one_iterate {w : Nat} (x : BitVec w) (n : Nat) : (·.rotateLeft 1)^[n] x = x.rotateLeft n := by
  induction n with
  | zero => exact (rotateLeft_zero x).symm
  | succ n ih =>
    rw [Function.iterate_succ_apply', ih]
    refine BitVec.eq_of_getMsbD_eq fun k hk => ?_
    have hlt : (1 + k) % w < w := Nat.mod_lt _ (by omega)
    simp [BitVec.getMsbD_rotateLeft, hlt, add_assoc]

/-- `rl8` is the rotation of the nine bits `{cin, x}` one place to the left (R150). -/
theorem cons_rl8 (x : Byte) (cin : Bool) :
    BitVec.cons (rl8 x cin).2 (rl8 x cin).1 = (BitVec.cons cin x).rotateLeft 1 := by
  ext k hk
  obtain rfl | rfl | ⟨hk0, hk8⟩ : k = 0 ∨ k = 8 ∨ (k ≠ 0 ∧ k < 8) := by omega
  · simp [rl8, BitVec.getElem_cons, BitVec.getElem_rotateLeft]
  · simp [rl8, BitVec.getElem_cons, BitVec.getElem_rotateLeft]
  · have hcin : k - 1 ≠ 8 := by omega
    simp [rl8, BitVec.getElem_cons, BitVec.getElem_rotateLeft, hk0, hk8.ne, hcin]

/-- The nine bits determine the carry and the byte. -/
theorem cons_inj {c d : Bool} {x y : Byte} (h : BitVec.cons c x = BitVec.cons d y) : c = d ∧ x = y := by
  constructor
  · simpa using congrArg BitVec.msb h
  · simpa using congrArg (BitVec.setWidth 8) h

/-- The nine bits that a rotate of `reg` through carry turns: the carry flag above the register (R150). -/
def carryAnd (reg : State → Byte) (s : State) : BitVec 9 := BitVec.cons (getFlag s .c) (reg s)

section
variable {i : Instr} {reg : State → Byte}
  (hrot : ∀ s, rl8 (reg s) (getFlag s .c) = (reg (execState i s), getFlag (execState i s) .c))
include hrot

theorem carryAnd_execState (s : State) : carryAnd reg (execState i s) = (carryAnd reg s).rotateLeft 1 := by
  rw [carryAnd, carryAnd, ← cons_rl8, hrot]

theorem carryAnd_iterate_nine (s : State) : carryAnd reg ((execState i)^[9] s) = carryAnd reg s := by
  have hstep : Function.Semiconj (carryAnd reg) (execState i) (·.rotateLeft 1) := carryAnd_execState hrot
  calc carryAnd reg ((execState i)^[9] s)
      = (·.rotateLeft 1)^[9] (carryAnd reg s) := hstep.iterate_right 9 s
    _ = (carryAnd reg s).rotateLeft 9 := rotateLeft_one_iterate _ 9
    _ = carryAnd reg s := rotateLeft_width _

/-- Nine executions of `i`, by any `andThen` that executes `i` in the state an outcome holds. -/
theorem exec_iterate_nine {andThen : Host.Outcome State Fault Refusal → Host.Outcome State Fault Refusal}
    (hexec : ∀ s, andThen (.next s) = exec i s) (s : State) :
    ∃ t, andThen^[9] (.next s) = .next t ∧ reg t = reg s ∧ getFlag t .c = getFlag s .c := by
  have hstep : Function.Semiconj .next (execState i) andThen := fun s => ((hexec s).trans (exec_eq_next i s)).symm
  exact ⟨_, (hstep.iterate_right 9 s).symm, (cons_inj (carryAnd_iterate_nine hrot s)).symm⟩

end

/-- Settles O24: RLA rotates A, and RL C rotates C, as nine bits with the carry flag. -/
theorem nineRotationsRestore : Obligations.NineRotationsRestore := by
  refine fun s => ⟨exec_iterate_nine (i := .rla) (reg := State.a) (fun u => ?_) (fun _ => rfl) s,
    exec_iterate_nine (i := .rlC) (reg := State.c) (fun u => ?_) (fun _ => rfl) s⟩
  all_goals rw [execState, getFlag_setCycles, getFlag_setZNHC]; rfl

end Sys2Proof.Machine
end

section
/-! PROOFS of the family 44_control.md. First what a run does where a step executes; then NOP and its runs, and the two
transfers of control. -/

namespace Sys2Proof.Machine

/-! ## NOP -/

/-- Where a step executes, a run goes on from the state it left, whatever the policy for failures (R177). -/
theorem drive_succ_of_step_next {policy : Config.OnDecodeError} {n : Nat} {s t : State} (h : step s = .next t) :
    drive policy (n + 1) s = drive policy n t := by
  rw [drive, driverStep, h]

/-- Opcode 0x00 makes the step NOP (R160). -/
theorem step_eq_exec_nop {s : State} (hop : (fetch s).1 = 0x00) : step s = exec .nop (fetch s).2 :=
  step_eq_exec_fetch hop (fun _ _ => rfl) rfl

/-- Where every byte is 0 each step is a NOP, and what it leaves has the same memory (R160). -/
theorem drive_of_readByte_eq_zero {policy : Config.OnDecodeError} {s : State} {n : Nat}
    (hzero : ∀ a, readByte s a = 0x00) :
    drive policy (n + 1) s = .next (setCycles (setPC s (s.pc + BitVec.ofNat 16 (n + 1))) 4) := by
  induction n generalizing s with
  | zero => exact drive_succ_of_step_next (step_eq_exec_nop (hzero s.pc))
  | succ n ih =>
    rw [drive_succ_of_step_next (step_eq_exec_nop (hzero s.pc)), ← addr_add_one_add]
    exact ih hzero

/-- Settles O26: by induction on the number of steps, each of which is a NOP and stores nothing. -/
theorem nopDoesNothing : Obligations.NopDoesNothing :=
  ⟨exec_nop, fun _ hop => step_eq_exec_nop hop, fun _ _ hzero => drive_of_readByte_eq_zero hzero⟩

/-! ## JR NZ,r8 -/

/-- Z clear: PC is set to the target (R161, decision D2). -/
theorem execState_jrNZ_of_z_clear {s : State} (hz : getFlag s .z = false) (r8 : Byte) :
    execState (.jrNZ r8) s = setCycles (setPC s (jrTarget s r8)) 12 := by
  simp [execState, hz]

/-- Z set: PC stays after the operand (R161, decision D2). -/
theorem execState_jrNZ_of_z_set {s : State} (hz : getFlag s .z = true) (r8 : Byte) :
    execState (.jrNZ r8) s = setCycles s 8 := by
  simp [execState, hz]

/-- Settles O27: the flag Z selects one of two states, and only the taken branch writes PC. -/
theorem jumpRelativeWhenZClear : Obligations.JumpRelativeWhenZClear := by
  refine ⟨fun s r8 hz => ⟨_, exec_eq_next (.jrNZ r8) s, ?_, ?_, execState_sp (.jrNZ r8) s,
      keptBut_execState (.jrNZ r8) s⟩,
    fun s r8 hz => ⟨_, exec_eq_next (.jrNZ r8) s, ?_, ?_, execState_sp (.jrNZ r8) s, keptBut_execState (.jrNZ r8) s⟩,
    fun _ hop => step_eq_exec_fetch_fetch hop (fun _ _ => rfl) fun _ => rfl⟩
  · rw [execState_jrNZ_of_z_clear hz, setCycles_pc, setPC_pc, jrTarget_toInt]
  · rw [execState_jrNZ_of_z_clear hz, setCycles_cycles]
  · rw [execState_jrNZ_of_z_set hz, setCycles_pc]
  · rw [execState_jrNZ_of_z_set hz, setCycles_cycles]

/-! ## CALL nn -/

/-- Settles O28: the pushed word is PC after the operand, and the pushes come before the jump. -/
theorem callPushesTheReturnAddress : Obligations.CallPushesTheReturnAddress :=
  ⟨fun s nn => ⟨_, exec_eq_next (.callNN nn) s, rfl, readByte_pushWord_high s s.pc, readByte_pushWord_low s s.pc,
      execState_sp (.callNN nn) s, rfl, keptBut_execState (.callNN nn) s⟩,
    fun _ hop => step_eq_exec_fetch16 hop (fun _ _ => rfl) fun _ => rfl⟩

end Sys2Proof.Machine
end

section
/-! PROOFS of the family 60_exceptions.md. Completion and the snapshot come from how the model is written; a decode
failure from what the decoder can answer; a run from the two outcomes a step has and what each policy makes of them. -/

namespace Sys2Proof.Machine

/-! ## Completion and decode failures -/

/-- Settles O9: `execState` is the state each instruction leaves. -/
theorem everyInstructionCompletes : Obligations.EveryInstructionCompletes :=
  fun i s => ⟨execState i s, exec_eq_next i s⟩

/-- Settles O7: of what the decoder can answer (`decode_cases`), an unrecognised first byte is fetched alone and the
prefix with the byte after it. -/
theorem decodeFailureChangesOnlyPC : Obligations.DecodeFailureChangesOnlyPC := by
  intro s t info h
  obtain ⟨hd, rfl⟩ := step_fault_inv h
  obtain ⟨-, i, hok⟩ | ⟨hop, herr⟩ | ⟨hop, -, -, herr⟩ := decode_cases (byteAt s 0) (byteAt s 1) (byteAt s 2)
  · cases hok.symm.trans hd
  · cases herr.symm.trans hd
    exact .inl ⟨rfl, afterFetch_of_not_mem_firstBytes hop⟩
  · cases herr.symm.trans hd
    exact .inr ⟨hop, rfl, (afterFetch_of_prefixByte hop).trans (fetch_fetch_snd s)⟩

/-! ## Runs under each policy -/

/-- A step executes or fails to decode; it has no third outcome (R174). -/
theorem step_next_or_fault (s : State) : ∃ t, step s = .next t ∨ ∃ info, step s = .fault (.decodeError info t) := by
  obtain ⟨i, hd, -⟩ | ⟨info, -, hs⟩ := step_cases s
  · exact ⟨_, .inl (step_of_decode_ok hd)⟩
  · exact ⟨_, .inr ⟨info, hs⟩⟩

/-- Under `continue` a run goes on from the state a decode failure left (R177). -/
theorem drive_resume_succ_of_step_fault {n : Nat} {s t : State} {info : DecodeError}
    (h : step s = .fault (.decodeError info t)) : drive .resume (n + 1) s = drive .resume n t := by
  rw [drive, driverStep, h]

/-- Under `halt` a run ends at a decode failure and reports it (R177, R204). -/
theorem drive_halt_succ_of_step_fault {n : Nat} {s t : State} {info : DecodeError}
    (h : step s = .fault (.decodeError info t)) : drive .halt (n + 1) s = .fault (.decodeError info t) := by
  rw [drive, driverStep, h]

theorem exists_drive_resume_eq_next (n : Nat) (s : State) : ∃ t, drive .resume n s = .next t := by
  induction n generalizing s with
  | zero => exact ⟨s, rfl⟩
  | succ n ih =>
    obtain ⟨t, h | ⟨info, h⟩⟩ := step_next_or_fault s
    · rw [drive_succ_of_step_next h]; exact ih t
    · rw [drive_resume_succ_of_step_fault h]; exact ih t

/-- A halting run ends short of its `n` steps only at a decode failure, which it reports after the `k` steps before. -/
theorem drive_halt_cases (n : Nat) (s : State) :
    (∃ t, drive .halt n s = .next t) ∨
    ∃ k u info t, k < n ∧ drive .halt k s = .next u ∧ step u = .fault (.decodeError info t) ∧
      drive .halt n s = .fault (.decodeError info t) := by
  induction n generalizing s with
  | zero => exact .inl ⟨s, rfl⟩
  | succ n ih =>
    obtain ⟨s', h | ⟨info, h⟩⟩ := step_next_or_fault s
    · rw [drive_succ_of_step_next h]
      obtain hnext | ⟨k, u, info, t, hk, hbefore, hfails, hends⟩ := ih s'
      · exact .inl hnext
      · exact .inr ⟨k + 1, u, info, t, Nat.succ_lt_succ hk, (drive_succ_of_step_next h).trans hbefore, hfails, hends⟩
    · exact .inr ⟨0, s, info, s', n.succ_pos, rfl, h, drive_halt_succ_of_step_fault h⟩

/-- Settles O46: each policy by induction on the number of steps. -/
theorem theMachineNeverStopsByItself : Obligations.TheMachineNeverStopsByItself :=
  ⟨exists_drive_resume_eq_next, drive_halt_cases⟩

/-! ## The snapshot -/

/-- Settles O48: each of its fields is the state's, and each flag the bit of F that `flagBit` gives it. -/
theorem snapshotShowsRegistersAndFlags : Obligations.SnapshotShowsRegistersAndFlags :=
  fun _ => rfl

end Sys2Proof.Machine
end

section
/-! PROOFS of the family 70_reset_and_hazards.md. What a step leaves in `cycles`, from the state each instruction leaves;
then a run to a stop address, one equation per end of it. -/

namespace Sys2Proof.Machine

/-! ## The Cycles column -/

theorem execState_cycles (i : Instr) (s : State) : (execState i s).cycles = cyclesOf i s := by
  cases i with
  | jrNZ r8 => rw [execState, apply_ite State.cycles]; rfl
  | _ => rfl

/-- The five values of the column; JR NZ,r8 has one of two (R209). -/
theorem cyclesOf_mem (i : Instr) (s : State) : cyclesOf i s ∈ [4, 8, 12, 16, 24] := by
  cases i with
  | jrNZ r8 => rw [cyclesOf]; split <;> decide
  | _ => simp [cyclesOf]

/-- Fetching changes PC alone. -/
theorem afterFetch_cycles (s : State) : (afterFetch s).cycles = s.cycles := rfl

/-- Settles O43: a step that executes leaves `execState`, and one that fails leaves the state after the fetches. -/
theorem cyclesFollowTheColumn : Obligations.CyclesFollowTheColumn := by
  refine ⟨fun i s t h => ?_, fun s t info h => ?_, fun s t h => ?_⟩
  · rw [eq_execState_of_exec h, execState_cycles]
  · obtain ⟨-, rfl⟩ := step_fault_inv h
    exact afterFetch_cycles s
  · obtain ⟨i, -, rfl⟩ := step_next_inv h
    rw [execState_cycles]
    exact cyclesOf_mem i (afterFetch s)

/-! ## Runs to a stop address -/

section
variable {policy : Config.OnDecodeError} {stop : Word} {s t : State} (n : Nat)

/-- One step of a run is one call of the driver, whichever outcome it has. -/
theorem drive_one : drive policy 1 s = driverStep policy s := by
  rw [drive]
  cases driverStep policy s <;> rfl

theorem drive_succ_of_driverStep_next (h : driverStep policy s = .next t) :
    drive policy (n + 1) s = drive policy n t := by
  rw [drive, h]

/-- With PC at the stop address no further step is taken (log entry 27). -/
theorem driveUntil_succ_of_pc_eq (hpc : s.pc = stop) : driveUntil policy stop (n + 1) s = .next s := by
  rw [driveUntil, if_pos hpc]

theorem driveUntil_succ_of_driverStep_next (hpc : s.pc ≠ stop) (h : driverStep policy s = .next t) :
    driveUntil policy stop (n + 1) s = driveUntil policy stop n t := by
  rw [driveUntil, if_neg hpc, h]

/-- Where the driver's call leads to no state, the run ends with that call's outcome. -/
theorem driveUntil_succ_of_driverStep_ne_next (hpc : s.pc ≠ stop) (h : ∀ t, driverStep policy s ≠ .next t) :
    driveUntil policy stop (n + 1) s = driverStep policy s := by
  rw [driveUntil, if_neg hpc]
  cases hd : driverStep policy s with
  | next t => exact absurd hd (h t)
  | fault r => rfl
  | refused r => rfl

end

/-- Settles O47: by induction on the bound. The run takes no step where PC is at the stop address; otherwise one step,
which either ends the run or is followed by the run from the state it led to. -/
theorem runUntilAddressIsAPrefix : Obligations.RunUntilAddressIsAPrefix := by
  intro policy stop n
  induction n with
  | zero => exact fun s => ⟨0, le_rfl, rfl, nofun, nofun⟩
  | succ n ih =>
    intro s
    by_cases hpc : s.pc = stop
    · refine ⟨0, Nat.zero_le _, driveUntil_succ_of_pc_eq n hpc, nofun, fun _ t hrun => ?_⟩
      cases hrun
      exact hpc
    have hbefore : ∀ u, drive policy 0 s = .next u → u.pc ≠ stop := fun u hrun => by cases hrun; exact hpc
    by_cases hnext : ∃ t, driverStep policy s = .next t
    · obtain ⟨t, ht⟩ := hnext
      obtain ⟨k, hk, hrun, hearlier, hend⟩ := ih t
      simp only [← drive_succ_of_driverStep_next _ ht] at hrun hearlier hend
      refine ⟨k + 1, Nat.succ_le_succ hk, (driveUntil_succ_of_driverStep_next n hpc ht).trans hrun, fun j hj => ?_,
        fun hlt => hend (Nat.lt_of_succ_lt_succ hlt)⟩
      cases j with
      | zero => exact hbefore
      | succ j => exact hearlier j (Nat.lt_of_succ_lt_succ hj)
    · have hends : ∀ t, driverStep policy s ≠ .next t := not_exists.mp hnext
      refine ⟨1, Nat.succ_le_succ n.zero_le, (driveUntil_succ_of_driverStep_ne_next n hpc hends).trans drive_one.symm,
        fun j hj => ?_, fun _ t hrun => absurd (drive_one.symm.trans hrun) (hends t)⟩
      cases Nat.lt_one_iff.mp hj
      exact hbefore

end Sys2Proof.Machine
end
